-- ==== Sys2Proof/Word.lean ====
section
/-! DEFINITION. The word and byte types of UTG-CORE and the two readings of a word (00_scope.md R8, R9). -/

namespace Sys2Proof

/-- A register or port word: 64 bits (R7, R22). -/
abbrev Word := BitVec 64

/-- A byte, an integer in `[0, 255]` (R9). -/
abbrev Byte := BitVec 8

/-- R8: `s64(p)`, the two's-complement reading of a 64-bit pattern. -/
abbrev s64 (p : Word) : Int := p.toInt

/-- R8: `u64(v) = v mod 2^64`. -/
abbrev u64 (v : Int) : Word := BitVec.ofInt 64 v

end Sys2Proof
end

