-- ==== Sys2Proof/Config.lean ====
section
/-! DEFINITION. What is fixed for the machine: the capacities of R7, and the free values (draws) of R38, R39 and R72. -/

namespace Sys2Proof.Config

/-- R7: `TEXT_CAP`. -/
abbrev textCap : Nat := 256

/-- R7: `KEY_CAP = TEXT_CAP * 5 / 8`. -/
abbrev keyCap : Nat := 160

/-- R7: `CAND_CAP`. -/
abbrev candCap : Nat := 16

/-- R7: `CODESTR_CAP`. -/
abbrev codestrCap : Nat := 16

/-- R7, R63: the size in bytes of the port window. -/
abbrev windowBytes : Nat := 4096

/-- FREE VALUE (log 3, safe): what the wall clock answers at draw `k` when State has no answer lined up (R38: "It is a draw"). -/
opaque wallClock : Nat → Word

/-- FREE VALUE (log 4, safe): whether the entropy source answers bytes at draw `k` when State has no answer lined up (R223). -/
opaque entropyReady : Nat → Bool

/-- FREE VALUE (log 4, safe): byte `i` of the entropy source's answer at draw `k` where State lines up none (R224). -/
opaque entropyByte : Nat → Nat → Byte

/-- FREE VALUE (log 5, safe): the word a port read of anything but `STATUS` returns while `BUSY = 1`, at draw `k` (R72). -/
opaque busyRead : Nat → Word

end Sys2Proof.Config
end

