-- ==== Sys2Proof/Syntax.lean ====
section
/-! DEFINITION. The nine commands of the opcode table (30_encoding.md R92), one constructor per row.
A command word carries no register numbers and no immediates (R91); its only operand is `W`,
which is legal with `GEN`, `VERIFY` and `CLOCK` alone (R93). -/

namespace Sys2Proof

/-- The commands of R92. The argument `w` is the word's `W` bit: true takes the wall clock, false takes `TS` (R93). -/
inductive Instr where
  | mkcfg
  | gen (w : Bool)
  | verify (w : Bool)
  | gensec
  | b32dec
  | b32enc
  | clock (w : Bool)
  | hotp
  | rand
deriving DecidableEq, Repr

end Sys2Proof
end

