-- ==== Sys2Proof/WellFormed.lean ====
section
/-! DEFINITION. Which 64-bit words are command words (30_encoding.md R90, R94), check by check, and which commands are
well formed. `Instr` itself admits no ill-formed term: an operand that a row does not have cannot be written. -/

namespace Sys2Proof

/-- R90: the `OP` field, bits 7:0. -/
def CommandWord.op (v : Word) : BitVec 8 := v.extractLsb' 0 8

/-- R90: the `W` bit, bit 8. -/
def CommandWord.w (v : Word) : Bool := v.getLsbD 8

/-- R90: the `RSV` field, bits 63:9. -/
def CommandWord.rsv (v : Word) : BitVec 55 := v.extractLsb' 9 55

/-- R92: the nine defined opcodes. -/
def CommandWord.opcodes : List (BitVec 8) := [0x01, 0x02, 0x03, 0x04, 0x10, 0x11, 0x12, 0x13, 0x14]

/-- R92, R93: the opcodes with which `W = 1` is allowed. -/
def CommandWord.wOpcodes : List (BitVec 8) := [0x02, 0x03, 0x12]

/-- R94, first check: `OP` is one of the nine defined opcodes. -/
def CommandWord.opDefined (v : Word) : Bool := CommandWord.opcodes.contains (CommandWord.op v)

/-- R94, second check: no bit of `RSV` is 1. -/
def CommandWord.rsvZero (v : Word) : Bool := CommandWord.rsv v == 0

/-- R94, third check: `W = 1` only with an opcode that allows it. -/
def CommandWord.wAllowed (v : Word) : Bool :=
  !CommandWord.w v || CommandWord.wOpcodes.contains (CommandWord.op v)

/-- R94: a word is legal when none of the three grounds for an illegal word holds. -/
def CommandWord.legal (v : Word) : Bool :=
  CommandWord.opDefined v && CommandWord.rsvZero v && CommandWord.wAllowed v

/-- Every term of `Instr` is well formed: R91 leaves a command no operand but `W`, and `Instr` gives `w` only to the
three commands that allow it (R93). -/
def Instr.wf : Instr → Bool
  | .mkcfg => true
  | .gen _ => true
  | .verify _ => true
  | .gensec => true
  | .b32dec => true
  | .b32enc => true
  | .clock _ => true
  | .hotp => true
  | .rand => true

end Sys2Proof
end

