-- ==== Sys2Proof/Decode.lean ====
section
/-! DEFINITION. Decoding, total on any 64-bit word (30_encoding.md R95), and the encoder written from the opcode table (R92). -/

namespace Sys2Proof

/-- R95: decoding of a command word; `none` is `Illegal`. -/
def decode (v : Word) : Option Instr :=
  if CommandWord.rsv v ≠ 0 then none
  else
    let op := CommandWord.op v
    let w := CommandWord.w v
    if op = 0x02 then some (.gen w)
    else if op = 0x03 then some (.verify w)
    else if op = 0x12 then some (.clock w)
    else if w then none
    else if op = 0x01 then some .mkcfg
    else if op = 0x04 then some .gensec
    else if op = 0x10 then some .b32dec
    else if op = 0x11 then some .b32enc
    else if op = 0x13 then some .hotp
    else if op = 0x14 then some .rand
    else none

/-- R90: a command word from its `OP` and `W` fields, `RSV = 0`. -/
def commandWord (op : BitVec 8) (w : Bool) : Word := 0#55 ++ BitVec.ofBool w ++ op

/-- R92: the word of each command. -/
def encode : Instr → Word
  | .mkcfg => commandWord 0x01 false
  | .gen w => commandWord 0x02 w
  | .verify w => commandWord 0x03 w
  | .gensec => commandWord 0x04 false
  | .b32dec => commandWord 0x10 false
  | .b32enc => commandWord 0x11 false
  | .clock w => commandWord 0x12 w
  | .hotp => commandWord 0x13 false
  | .rand => commandWord 0x14 false

/-- What `decode` reads from the word whose bits are `w`, numbered as spec/opcode_table.json numbers them. A command is
one 64-bit word (R90, R96), so a number with bits above bit 63 is no command. -/
def decodeTableWord (nbits w : Nat) : Option Instr :=
  if nbits ≤ 64 ∧ w < 2 ^ 64 then decode (BitVec.ofNat 64 w) else none

end Sys2Proof
end

