-- ==== Sys2Proof/Machine/State.lean ====
section
/-! DEFINITION. The state of UTG-CORE as the spec gives it (10_state.md R21 to R43), what stands outside the block,
the reset state, and the ways a step can stop. -/

namespace Sys2Proof.Machine

/-- The thirteen registers of R21 (slots x2 to x14). -/
inductive Reg where
  | ts | t0 | step | digits | alg | window | len | ctr | rem | code | textLen | keyLen | candLen
deriving DecidableEq, Repr

/-- The four byte buffers of R32. -/
inductive Buf where
  | cand | codestr | text | key
deriving DecidableEq, Repr

/-- What a port word is (R21, R63): the command port, the status register, a register, word `k` of a buffer, or reserved. -/
inductive Place where
  | cmd
  | status
  | reg (r : Reg)
  | buf (b : Buf) (k : Nat)
  | reserved
deriving DecidableEq, Repr

/-- The error kinds of R236. -/
inductive ErrorKind where
  | invalidSecret
  | invalidAlgorithm
  | invalidParameter
  | invalidLength
  | noConfig
  | illegalCommand
  | capacity
  | entropyUnavailable
deriving DecidableEq, Repr

/-- The three supported hashes, a closed enumeration (R175, R186). -/
inductive Alg where
  | sha1
  | sha256
  | sha512
deriving DecidableEq, Repr

/-- The fields of `STATUS` (R28); its other bits read 0 and hold nothing. -/
structure Status where
  /-- bit 0, `BUSY` (R41) -/
  busy : Bool
  /-- bit 1, `CFG_VALID` (R29) -/
  cfgValid : Bool
  /-- bit 2, `MATCH` (R35) -/
  matched : Bool
  /-- bit 3, `CNEG`, bit 64 of the counter (R26) -/
  cneg : Bool
  /-- bit 4, `FATAL` (R40) -/
  fatal : Bool
  /-- bits 11:8, `ERR` (R36) -/
  err : BitVec 4
deriving DecidableEq, Repr

/-- The registers of R21, each 64 bits, each holding any pattern (R22). -/
structure Regs where
  ts : Word
  t0 : Word
  step : Word
  digits : Word
  alg : Word
  window : Word
  len : Word
  ctr : Word
  rem : Word
  code : Word
  textLen : Word
  keyLen : Word
  candLen : Word
deriving DecidableEq, Repr

/-- A host transaction on the port (R10, R61, R62): the byte offset, the width in bytes, and for a write the word. Only
aligned accesses of width 8 inside the window exist (R67); any other is refused. -/
inductive Transaction where
  | read (addr width : Nat)
  | write (addr width : Nat) (v : Word)
deriving DecidableEq, Repr

/-- One turn of the machine: the engine's, the host's, or the reset input's (R15, R265). -/
inductive Turn where
  | engine
  | host (t : Transaction)
  | reset
deriving DecidableEq, Repr

/-- An answer of the entropy source lined up in State (R39). -/
inductive EntropyAnswer where
  | bytes (b : List Byte)
  | unavailable
deriving DecidableEq, Repr

/-- What stands outside the block (R15, R44): no rule of the spec gives it state, these are the model's own fields
(log 1 to 5). -/
structure Env where
  /-- the turns still to be taken, first one first (log 1) -/
  schedule : List Turn
  /-- the words port reads returned to the host, newest first (log 2) -/
  replies : List Word
  /-- wall-clock answers lined up, next one first; where empty the answer is a free value (log 3) -/
  clock : List Word
  /-- entropy answers lined up, next one first; where empty the answer is a free value (log 4) -/
  entropy : List EntropyAnswer
  /-- how many draws were taken; the free values are applied to it (log 3) -/
  draws : Nat
deriving DecidableEq, Repr

/-- The bytes of the four buffers at their port offsets (R63), in canonical form: addresses strictly rising and no
entry equal to what an unlisted address reads as (`Memory.wf`). -/
abbrev Memory := List Host.Cell

/-- What an unlisted address reads as: the reset contents of every buffer byte, 0 (R43), and of reserved offsets (R70). -/
def Memory.unlisted : Byte := 0

structure State where
  status : Status
  regs : Regs
  mem : Memory
  /-- the pending command word `PEND` (R37) -/
  pend : Word
  env : Env
deriving DecidableEq, Repr

/-- Why the machine stops with a fault. Both arise only in a state with `CFG_VALID = 1` that is no constructed
configuration, which no run from reset reaches (R29); log 8. -/
inductive Fault where
  /-- raised by `GEN` and `VERIFY`: `fdiv` and `fmod` are not defined for a divisor that is not positive (R141). Safe. -/
  | stepNotPositive
  /-- raised by `GEN`, `VERIFY` and `HOTP`: `hotp` is not defined outside `alg` in {0, 1, 2}, `digits` in [6, 10] and a
  key of at most `KEY_CAP` bytes (R155). Safe. -/
  | hotpOutsideDomain
deriving DecidableEq, Repr

/-- Why a step has no meaning. -/
inductive Refusal where
  /-- answered by `exec` for an instruction that has no meaning yet. Safe. -/
  | notModelled (mnemonic : String)
  /-- answered for a port access that cannot be expressed on the port: "A model gives such an access no step
  (refuses it)" (R67); log 9. Safe. -/
  | noSuchAccess
deriving DecidableEq, Repr

/-- R43: the registers after reset, D0's defaults in `STEP`, `DIGITS`, `ALG`, `WINDOW`, `LEN`. -/
def Regs.reset : Regs where
  ts := 0
  t0 := 0
  step := 30
  digits := 6
  alg := 0
  window := 1
  len := 32
  ctr := 0
  rem := 0
  code := 0
  textLen := 0
  keyLen := 0
  candLen := 0

/-- R43: `STATUS` after reset is 0. -/
def Status.reset : Status where
  busy := false
  cfgValid := false
  matched := false
  cneg := false
  fatal := false
  err := 0

/-- DESIGN CHOICE (log 1 to 4): outside the block nothing is lined up, nothing was read and nothing drawn. -/
def Env.reset : Env where
  schedule := []
  replies := []
  clock := []
  entropy := []
  draws := 0

/-- R43, R265: the machine right after reset. -/
def State.reset : State where
  status := Status.reset
  regs := Regs.reset
  mem := []
  pend := 0
  env := Env.reset

end Sys2Proof.Machine
end

