-- ==== Sys2Proof/Machine/Flags.lean ====
section
/-! DEFINITION. `STATUS`: its word, its error codes and the updates of its fields (10_state.md R28, 60_exceptions.md R236). -/

namespace Sys2Proof.Machine

/-- R236: the code of an error kind in `STATUS.ERR`; 0 is no error, 9 to 15 are never written. -/
def ErrorKind.errCode : ErrorKind → BitVec 4
  | .invalidSecret => 1
  | .invalidAlgorithm => 2
  | .invalidParameter => 3
  | .invalidLength => 4
  | .noConfig => 5
  | .illegalCommand => 6
  | .capacity => 7
  | .entropyUnavailable => 8

/-- R28, R64: the word `STATUS` reads as, from bit 63 down; reserved bits are 0. -/
def Status.word (st : Status) : Word :=
  0#52 ++ st.err ++ 0#3 ++ BitVec.ofBool st.fatal ++ BitVec.ofBool st.cneg ++ BitVec.ofBool st.matched ++
    BitVec.ofBool st.cfgValid ++ BitVec.ofBool st.busy

/-- R30: a write to config-bearing state clears `CFG_VALID`, whether the value changes or not. -/
def State.clearCfgValid (s : State) : State := { s with status := { s.status with cfgValid := false } }

/-- R110: `MKCFG` sets `CFG_VALID`. -/
def State.setCfgValid (s : State) : State := { s with status := { s.status with cfgValid := true } }

/-- R35: `VERIFY` writes `MATCH`. -/
def State.setMatch (s : State) (m : Bool) : State := { s with status := { s.status with matched := m } }

/-- R26: the sign of the 65-bit counter. -/
def State.setCneg (s : State) (neg : Bool) : State := { s with status := { s.status with cneg := neg } }

/-- R34, R41: a `CMD` write sets `BUSY` and captures the command word. -/
def State.startCommand (s : State) (v : Word) : State :=
  { s with status := { s.status with busy := true }, pend := v }

end Sys2Proof.Machine
end

