-- ==== Sys2Proof/Machine/Ops.lean ====
section
/-! DEFINITION. The named operations over memory, registers, draws and completion that the meanings share. -/

namespace Sys2Proof.Machine

/-! ## Byte strings and numbers (00_scope.md R9) -/

/-- R9: `be(n, v)`, the `n`-byte big-endian encoding. -/
def be : Nat → Nat → List Byte
  | 0, _ => []
  | n + 1, v => BitVec.ofNat 8 (v / 256 ^ n) :: be n v

/-- R9: `ube(s)`, the unsigned integer a byte string encodes big-endian. -/
def ube (s : List Byte) : Nat := s.foldl (fun a b => 256 * a + b.toNat) 0

/-- R65: the word whose lane `j`, bits `8*j+7 .. 8*j`, is byte `j`. -/
def leWord (s : List Byte) : Word := BitVec.ofNat 64 (s.foldr (fun b a => b.toNat + 256 * a) 0)

/-- R65: the eight lanes of a word, lane 0 first. -/
def leBytes (v : Word) : List Byte := (List.range 8).map fun j => v.extractLsb' (8 * j) 8

/-- R33: a byte string followed by zero bytes up to a buffer's capacity. -/
def padTo (cap : Nat) (s : List Byte) : List Byte := (s ++ List.replicate (cap - s.length) 0).take cap

/-! ## Memory -/

/-- The byte at an address; an unlisted address reads as `Memory.unlisted`. -/
def Memory.read : Memory → Nat → Byte
  | [], _ => Memory.unlisted
  | (b, v) :: m, a => if a = b then v else Memory.read m a

/-- The canonical cells of a byte string laid down from `base` on. -/
def Memory.cells : Nat → List Byte → Memory
  | _, [] => []
  | base, v :: vs =>
    if v = Memory.unlisted then Memory.cells (base + 1) vs else (base, v) :: Memory.cells (base + 1) vs

/-- Storing a byte string from `base` on; every other byte keeps its value. -/
def Memory.write (m : Memory) (base : Nat) (s : List Byte) : Memory :=
  m.filter (fun c => decide (c.1 < base)) ++ Memory.cells base s ++
    m.filter (fun c => decide (base + s.length ≤ c.1))

/-- The `n` bytes from `base` on. -/
def Memory.bytes (m : Memory) (base n : Nat) : List Byte := (List.range n).map fun i => m.read (base + i)

/-- R32: the first port offset of a buffer. -/
def Buf.base : Buf → Nat
  | .cand => 0x080
  | .codestr => 0x090
  | .text => 0x100
  | .key => 0x200

/-- R7, R32: the capacity of a buffer in bytes. -/
def Buf.cap : Buf → Nat
  | .cand => Config.candCap
  | .codestr => Config.codestrCap
  | .text => Config.textCap
  | .key => Config.keyCap

/-- R63: the port offsets that hold a buffer byte. -/
def Memory.mapped (a : Nat) : Bool :=
  (decide (0x080 ≤ a) && decide (a < 0x0A0)) || (decide (0x100 ≤ a) && decide (a < 0x2A0))

/-- The canonical form of memory: addresses strictly rising, no entry at the unlisted value, buffer bytes only. -/
abbrev Memory.wf (m : Memory) : Prop :=
  m.Pairwise (fun c d => c.1 < d.1) ∧ ∀ c ∈ m, c.2 ≠ Memory.unlisted ∧ Memory.mapped c.1 = true

/-- R10: `BUF[i]`. -/
def State.bufByte (s : State) (b : Buf) (i : Nat) : Byte := s.mem.read (b.base + i)

/-- R9, R10: `BUF[0..n)`. -/
def State.buf (s : State) (b : Buf) (n : Nat) : List Byte := s.mem.bytes b.base n

/-- R10, R33: `BUF <- t`, all `CAP` bytes, zeros after `t`. -/
def State.setBuf (s : State) (b : Buf) (t : List Byte) : State :=
  { s with mem := s.mem.write b.base (padTo b.cap t) }

/-! ## Registers -/

/-- R10: `x[NAME]` as a pattern. -/
def Regs.get (r : Regs) : Reg → Word
  | .ts => r.ts
  | .t0 => r.t0
  | .step => r.step
  | .digits => r.digits
  | .alg => r.alg
  | .window => r.window
  | .len => r.len
  | .ctr => r.ctr
  | .rem => r.rem
  | .code => r.code
  | .textLen => r.textLen
  | .keyLen => r.keyLen
  | .candLen => r.candLen

/-- R10: `x[NAME] <- v`; the pattern is stored unchanged (R22). -/
def Regs.set (r : Regs) : Reg → Word → Regs
  | .ts, v => { r with ts := v }
  | .t0, v => { r with t0 := v }
  | .step, v => { r with step := v }
  | .digits, v => { r with digits := v }
  | .alg, v => { r with alg := v }
  | .window, v => { r with window := v }
  | .len, v => { r with len := v }
  | .ctr, v => { r with ctr := v }
  | .rem, v => { r with rem := v }
  | .code, v => { r with code := v }
  | .textLen, v => { r with textLen := v }
  | .keyLen, v => { r with keyLen := v }
  | .candLen, v => { r with candLen := v }

/-- `x[NAME] <- v` on the state. -/
def State.setReg (s : State) (r : Reg) (v : Word) : State := { s with regs := s.regs.set r v }

/-- R30, R126, R221: the engine stores a key; `KEY` and `KEY_LEN` are config-bearing. -/
def State.storeKey (s : State) (t : List Byte) : State :=
  ((s.setBuf .key t).setReg .keyLen (BitVec.ofNat 64 t.length)).clearCfgValid

/-- R30, R127, R221: the engine stores a secret text; `TEXT` and `TEXT_LEN` are config-bearing. -/
def State.storeText (s : State) (t : List Byte) : State :=
  ((s.setBuf .text t).setReg .textLen (BitVec.ofNat 64 t.length)).clearCfgValid

/-! ## Completion and errors -/

/-- R36, R41: the end of a command that succeeds: `ERR <- 0`, `BUSY <- 0`. -/
def State.succeed (s : State) : State := { s with status := { s.status with busy := false, err := 0 } }

/-- R241: error entry, `raise K`: `ERR <- code(K)`, `BUSY <- 0`, nothing else. There is nothing to restore (R242). -/
def State.raise (s : State) (k : ErrorKind) : State :=
  { s with status := { s.status with busy := false, err := k.errCode } }

/-- R35, R241: every `raise` of `VERIFY` also performs `MATCH <- 0`. -/
def State.raiseVerify (s : State) (k : ErrorKind) : State := (s.raise k).setMatch false

/-- R223, R243: fatal entry: `FATAL <- 1`, `ERR <- 8`, `BUSY <- 0`, nothing else. -/
def State.enterFatal (s : State) : State :=
  { s with status := { s.status with busy := false, err := ErrorKind.entropyUnavailable.errCode, fatal := true } }

/-! ## Draws -/

/-- R38: `WallClock()`, one sample: the next answer lined up, else a free value (log 3). -/
def State.sampleClock (s : State) : Word × State :=
  match s.env.clock with
  | [] => (Config.wallClock s.env.draws, { s with env := { s.env with draws := s.env.draws + 1 } })
  | v :: vs => (v, { s with env := { s.env with clock := vs, draws := s.env.draws + 1 } })

/-- Exactly `n` bytes from an answer lined up at draw `k`: bytes the answer does not have are free values (log 4). -/
def entropyBytes (k n : Nat) (b : List Byte) : List Byte :=
  (List.range n).map fun i => b.getD i (Config.entropyByte k i)

/-- R39: `Entropy(n)`, one answer: `n` bytes, or none when the source is unavailable; the next answer lined up, else a
free value (log 4). -/
def State.drawEntropy (s : State) (n : Nat) : Option (List Byte) × State :=
  match s.env.entropy with
  | [] =>
    (if Config.entropyReady s.env.draws then some (entropyBytes s.env.draws n []) else none,
      { s with env := { s.env with draws := s.env.draws + 1 } })
  | .bytes b :: es =>
    (some (entropyBytes s.env.draws n b), { s with env := { s.env with entropy := es, draws := s.env.draws + 1 } })
  | .unavailable :: es => (none, { s with env := { s.env with entropy := es, draws := s.env.draws + 1 } })

/-! ## Reset and the turns -/

/-- R265, R266: the reset input puts the whole block at its reset values and discards a command in flight; what is
outside the block is not reset (R43). -/
def State.resetInput (s : State) : State := { State.reset with env := s.env }

/-- The state whose turns still to be taken are `ts` (log 1). -/
def State.withSchedule (s : State) (ts : List Turn) : State := { s with env := { s.env with schedule := ts } }

end Sys2Proof.Machine
end

