-- ==== Sys2Proof/Machine/Operands.lean ====
section
/-! DEFINITION. The operand forms of the commands: signed readings, the buffers below their length registers, the
timestamp operand, the hash code and the operands of `hotp` (30_encoding.md R91, R99). -/

namespace Sys2Proof.Machine

/-- `TEXT[0..x[TEXT_LEN])`. -/
def State.textOperand (s : State) : List Byte := s.buf .text s.regs.textLen.toNat

/-- `KEY[0..x[KEY_LEN])`. -/
def State.keyOperand (s : State) : List Byte := s.buf .key s.regs.keyLen.toNat

/-- `CAND[0..x[CAND_LEN])` (R204). -/
def State.candOperand (s : State) : List Byte := s.buf .cand s.regs.candLen.toNat

/-- R144: the timestamp used: `WallClock()` if `W = 1`, else `TS`. -/
def State.timestamp (s : State) (w : Bool) : Word × State := if w then s.sampleClock else (s.regs.ts, s)

/-- R99: the hash an `ALG` code names; every other pattern is no supported hash. -/
def Alg.ofCode (v : Word) : Option Alg :=
  if v = 0 then some .sha1 else if v = 1 then some .sha256 else if v = 2 then some .sha512 else none

/-- R26: the counter `x[CTR] - 2^64 * STATUS.CNEG`. -/
def State.counterOperand (s : State) : Int := (s.regs.ctr.toNat : Int) - 2 ^ 64 * (s.status.cneg.toNat : Int)

/-- The arguments of `hotp` that a constructed configuration gives (R155). -/
structure HotpArgs where
  key : List Byte
  alg : Alg
  digits : Nat
deriving DecidableEq, Repr

/-- R155: the key, hash and digits the commands give `hotp`; none outside the values `hotp` is defined for (log 8). -/
def State.hotpArgs (s : State) : Option HotpArgs :=
  match Alg.ofCode s.regs.alg with
  | none => none
  | some a =>
    if 6 ≤ s64 s.regs.digits ∧ s64 s.regs.digits ≤ 10 ∧ s.regs.keyLen.toNat ≤ Config.keyCap then
      some { key := s.keyOperand, alg := a, digits := (s64 s.regs.digits).toNat }
    else none

end Sys2Proof.Machine
end

