-- ==== Sys2Proof/Machine/Base32.lean ====
section
/-! DEFINITION. SecretCodec: the Base32 decoder and encoder, and the commands `B32DEC` and `B32ENC` (41_secretcodec.md). -/

namespace Sys2Proof.Machine

/-- The padding character `=` (R120). -/
def padChar : Byte := 0x3D

/-- R121: the value of a Base32 character; every other byte has none. -/
def b32val (c : Byte) : Option Nat :=
  if 0x41 ≤ c.toNat ∧ c.toNat ≤ 0x5A then some (c.toNat - 0x41)
  else if 0x32 ≤ c.toNat ∧ c.toNat ≤ 0x37 then some (c.toNat - 0x32 + 26)
  else none

/-- R121: the character of a value below 32. -/
def b32chr (v : Nat) : Byte := if v < 26 then BitVec.ofNat 8 (0x41 + v) else BitVec.ofNat 8 (0x32 + (v - 26))

/-- R122: uppercase of the 26 ASCII lower-case letters, no other byte changes. -/
def upcase (c : Byte) : Byte := if 0x61 ≤ c.toNat ∧ c.toNat ≤ 0x7A then c - 0x20 else c

/-- R123: right-pad with `=` to the next multiple of 8. -/
def padRepair (t : List Byte) : List Byte :=
  if t.length % 8 ≠ 0 then t ++ List.replicate (8 - t.length % 8) padChar else t

/-- R124: the number of trailing `=` bytes. -/
def trailingPad (t : List Byte) : Nat := (t.reverse.takeWhile (· == padChar)).length

/-- R124: the values of the data characters, none if some byte has no value. -/
def b32vals : List Byte → Option (List Nat)
  | [] => some []
  | c :: cs =>
    match b32val c, b32vals cs with
    | some v, some vs => some (v :: vs)
    | _, _ => none

/-- R124: the number that values below 32 write, first one most significant. -/
def b32number (vs : List Nat) : Nat := vs.foldl (fun a v => 32 * a + v) 0

/-- R124: the legal counts of trailing `=`. -/
def legalPadCount (p : Nat) : Bool := p == 0 || p == 1 || p == 3 || p == 4 || p == 6

/-- R124: the bytes that data characters pack: the top `8 L` of their `5 m` bits. -/
def b32pack (vs : List Nat) : List Byte :=
  let m := vs.length
  let l := 5 * m / 8
  be l (b32number vs / 2 ^ (5 * m - 8 * l))

/-- R124: `b32decode(text)`; none is `invalid`. -/
def b32decode (text : List Byte) : Option (List Byte) :=
  let t := padRepair (text.map upcase)
  let p := trailingPad t
  match b32vals (t.take (t.length - p)) with
  | none => none
  | some vs => if legalPadCount p then some (b32pack vs) else none

/-- R125: the `m` data characters of a `5 m`-bit number, most significant first. -/
def b32digits : Nat → Nat → List Byte
  | 0, _ => []
  | m + 1, a => b32chr (a / 32 ^ m % 32) :: b32digits m a

/-- R125: `b32encode(b)`. -/
def b32encode (b : List Byte) : List Byte :=
  let n := b.length
  let m := (8 * n + 4) / 5
  b32digits m (ube b * 2 ^ (5 * m - 8 * n)) ++ List.replicate ((8 - m % 8) % 8) padChar

/-- R126: `B32DEC`. -/
def execB32dec (s : State) : Host.Outcome State Fault Refusal :=
  if Config.textCap < s.regs.textLen.toNat then .next (s.raise .capacity)
  else
    match b32decode s.textOperand with
    | none => .next (s.raise .invalidSecret)
    | some r => .next (s.storeKey r).succeed

/-- R127: `B32ENC`. -/
def execB32enc (s : State) : Host.Outcome State Fault Refusal :=
  if Config.keyCap < s.regs.keyLen.toNat then .next (s.raise .capacity)
  else .next (s.storeText (b32encode s.keyOperand)).succeed

end Sys2Proof.Machine
end

