-- ==== Sys2Proof/Machine/Configure.lean ====
section
/-! DEFINITION. Configuration construction: the command `MKCFG` (40_config.md). -/

namespace Sys2Proof.Machine

/-- R110: `MKCFG`, its five checks in their fixed order (R239). -/
def execMkcfg (s : State) : Host.Outcome State Fault Refusal :=
  if Config.textCap < s.regs.textLen.toNat then .next (s.raise .capacity)
  else
    match b32decode s.textOperand with
    | none => .next (s.raise .invalidSecret)
    | some r =>
      if s64 s.regs.step ≤ 0 then .next (s.raise .invalidParameter)
      else if s64 s.regs.digits < 6 ∨ 10 < s64 s.regs.digits then .next (s.raise .invalidParameter)
      else if Alg.ofCode s.regs.alg = none then .next (s.raise .invalidAlgorithm)
      else .next ((s.storeKey r).setCfgValid).succeed

end Sys2Proof.Machine
end

