-- ==== Sys2Proof/Machine/Random.lean ====
section
/-! DEFINITION. SecretGenerator: the commands `RAND` and `GENSEC` (46_secretgenerator.md). -/

namespace Sys2Proof.Machine

/-- R220, R221, R223: from the draw of `n` bytes on: store the bytes and their Base32 text, or enter the fatal state. -/
def State.generateSecret (s : State) (n : Nat) : State :=
  match s.drawEntropy n with
  | (none, s₁) => s₁.enterFatal
  | (some b, s₁) => ((s₁.storeKey b).storeText (b32encode b)).succeed

/-- R221: `RAND`, any length the buffers hold. -/
def execRand (s : State) : Host.Outcome State Fault Refusal :=
  if s64 s.regs.len < 1 ∨ (Config.keyCap : Int) < s64 s.regs.len then .next (s.raise .invalidLength)
  else .next (s.generateSecret (s64 s.regs.len).toNat)

/-- R222: `GENSEC`, the length policy 16 to 64. -/
def execGensec (s : State) : Host.Outcome State Fault Refusal :=
  if s64 s.regs.len < 16 ∨ 64 < s64 s.regs.len then .next (s.raise .invalidLength)
  else .next (s.generateSecret (s64 s.regs.len).toNat)

end Sys2Proof.Machine
end

