-- ==== Sys2Proof/Machine/Clock.lean ====
section
/-! DEFINITION. CounterClock: the divider with floor quotient and floor modulo, and the command `CLOCK` (42_counterclock.md). -/

namespace Sys2Proof.Machine

/-- R142: `counter(timestamp, t0, time_step)`, exact integers, floor quotient. -/
def counterOf (ts t0 step : Int) : Int := (ts - t0).fdiv step

/-- R143: `time_remaining(timestamp, t0, time_step)`. -/
def timeRemaining (ts t0 step : Int) : Int := step - (ts - t0).fmod step

/-- R26: the engine writes the 65-bit counter `CNEG:CTR` as a pair. -/
def State.setCounter (s : State) (c : Int) : State := (s.setReg .ctr (u64 c)).setCneg (decide (c < 0))

/-- R145: `CLOCK`. -/
def execClock (w : Bool) (s : State) : Host.Outcome State Fault Refusal :=
  if s64 s.regs.step ≤ 0 then .next (s.raise .invalidParameter)
  else
    let (ts, s₁) := s.timestamp w
    let c := counterOf (s64 ts) (s64 s.regs.t0) (s64 s.regs.step)
    let rem := timeRemaining (s64 ts) (s64 s.regs.t0) (s64 s.regs.step)
    .next (((s₁.setReg .ts ts).setCounter c).setReg .rem (u64 rem)).succeed

end Sys2Proof.Machine
end

