-- ==== Sys2Proof/Machine/Hash.lean ====
section
/-! DEFINITION. The three hash functions and HMAC (44_hash_primitives.md R175 to R186). -/

namespace Sys2Proof.Machine

/-! ## Words and blocks (R177) -/

/-- R177: the first `k` words of `n` bytes each of a byte string, each read big-endian. -/
def beWords (n w : Nat) : Nat → List Byte → List (BitVec w)
  | 0, _ => []
  | k + 1, s => BitVec.ofNat w (ube (s.take n)) :: beWords n w k (s.drop n)

/-- The first `k` blocks of `n` bytes of a byte string. -/
def blocksOf (n : Nat) : Nat → List Byte → List (List Byte)
  | 0, _ => []
  | k + 1, s => s.take n :: blocksOf n k (s.drop n)

/-- R181, R184: the `k` words that one line of a table of constants writes, the first word most significant. -/
def lineWords (w : Nat) : Nat → Nat → List (BitVec w)
  | 0, _ => []
  | k + 1, n => BitVec.ofNat w (n / 2 ^ (w * k)) :: lineWords w k n

/-- R178: `pad64(m)`; `(119 - l mod 64) mod 64` is `(55 - l) mod 64` taken in `[0, 63]`. -/
def pad64 (m : List Byte) : List Byte :=
  m ++ [0x80] ++ List.replicate ((119 - m.length % 64) % 64) 0 ++ be 8 (8 * m.length)

/-- R183: `pad128(m)`; `(239 - l mod 128) mod 128` is `(111 - l) mod 128` taken in `[0, 127]`. -/
def pad128 (m : List Byte) : List Byte :=
  m ++ [0x80] ++ List.replicate ((239 - m.length % 128) % 128) 0 ++ be 16 (8 * m.length)

/-! ## SHA1 -/

/-- R179: the five words of SHA1's state. -/
structure Sha1State where
  a : BitVec 32
  b : BitVec 32
  c : BitVec 32
  d : BitVec 32
  e : BitVec 32
deriving DecidableEq, Repr

/-- R179: the initial state of SHA1. -/
def sha1Init : Sha1State where
  a := 0x67452301
  b := 0xefcdab89
  c := 0x98badcfe
  d := 0x10325476
  e := 0xc3d2e1f0

/-- R179: the round constant `K(t)` of SHA1. -/
def sha1K (t : Nat) : BitVec 32 :=
  if t ≤ 19 then 0x5a827999 else if t ≤ 39 then 0x6ed9eba1 else if t ≤ 59 then 0x8f1bbcdc else 0xca62c1d6

/-- R179: the round function `f(t; b, c, d)` of SHA1. -/
def sha1F (t : Nat) (b c d : BitVec 32) : BitVec 32 :=
  if t ≤ 19 then (b &&& c) ||| (~~~b &&& d)
  else if t ≤ 39 then b ^^^ c ^^^ d
  else if t ≤ 59 then (b &&& c) ||| (b &&& d) ||| (c &&& d)
  else b ^^^ c ^^^ d

/-- R180: `n` further words of SHA1's message schedule, kept newest first, so `W[t-k]` is entry `k-1`. -/
def sha1Extend : Nat → List (BitVec 32) → List (BitVec 32)
  | 0, ws => ws
  | n + 1, ws =>
    sha1Extend n ((ws.getD 2 0 ^^^ ws.getD 7 0 ^^^ ws.getD 13 0 ^^^ ws.getD 15 0).rotateLeft 1 :: ws)

/-- R180: `W[0..79]` of a 64-byte block. -/
def sha1Schedule (block : List Byte) : List (BitVec 32) :=
  (sha1Extend 64 (beWords 4 32 16 block).reverse).reverse

/-- R180: round `t` of SHA1 with `W[t]`. -/
def sha1Round (x : Sha1State) (wt : BitVec 32 × Nat) : Sha1State where
  a := x.a.rotateLeft 5 + sha1F wt.2 x.b x.c x.d + x.e + sha1K wt.2 + wt.1
  b := x.a
  c := x.b.rotateLeft 30
  d := x.c
  e := x.d

/-- R180: one block of SHA1. -/
def sha1Compress (h : Sha1State) (block : List Byte) : Sha1State :=
  let x := (sha1Schedule block).zipIdx.foldl sha1Round h
  { a := h.a + x.a, b := h.b + x.b, c := h.c + x.c, d := h.d + x.d, e := h.e + x.e }

/-- R180: `SHA1(m)`, 20 bytes. -/
def sha1 (m : List Byte) : List Byte :=
  let p := pad64 m
  let x := (blocksOf 64 (p.length / 64) p).foldl sha1Compress sha1Init
  be 4 x.a.toNat ++ be 4 x.b.toNat ++ be 4 x.c.toNat ++ be 4 x.d.toNat ++ be 4 x.e.toNat

/-! ## SHA256 and SHA512: the same rounds on 32-bit and 64-bit words -/

/-- R181, R184: the eight words of the state of SHA256 (`w = 32`) or SHA512 (`w = 64`). -/
structure Sha2State (w : Nat) where
  a : BitVec w
  b : BitVec w
  c : BitVec w
  d : BitVec w
  e : BitVec w
  f : BitVec w
  g : BitVec w
  h : BitVec w
deriving DecidableEq, Repr

/-- R182: `Ch(x, y, z)`. -/
def sha2Ch {w : Nat} (x y z : BitVec w) : BitVec w := (x &&& y) ^^^ (~~~x &&& z)

/-- R182: `Maj(x, y, z)`. -/
def sha2Maj {w : Nat} (x y z : BitVec w) : BitVec w := (x &&& y) ^^^ (x &&& z) ^^^ (y &&& z)

/-- R182, R185: `n` further words of the message schedule, kept newest first, with the hash's own `s0` and `s1`. -/
def sha2Extend {w : Nat} (s0 s1 : BitVec w → BitVec w) : Nat → List (BitVec w) → List (BitVec w)
  | 0, ws => ws
  | n + 1, ws => sha2Extend s0 s1 n ((s1 (ws.getD 1 0) + ws.getD 6 0 + s0 (ws.getD 14 0) + ws.getD 15 0) :: ws)

/-- R182, R185: one round with `K[t]` and `W[t]`, with the hash's own `S0` and `S1`. -/
def sha2Round {w : Nat} (S0 S1 : BitVec w → BitVec w) (x : Sha2State w) (kw : BitVec w × BitVec w) : Sha2State w :=
  let t1 := x.h + S1 x.e + sha2Ch x.e x.f x.g + kw.1 + kw.2
  let t2 := S0 x.a + sha2Maj x.a x.b x.c
  { a := t1 + t2, b := x.a, c := x.b, d := x.c, e := x.d + t1, f := x.e, g := x.f, h := x.g }

/-- R182, R185: the sum of the state before and after a block's rounds. -/
def Sha2State.add {w : Nat} (x y : Sha2State w) : Sha2State w where
  a := x.a + y.a
  b := x.b + y.b
  c := x.c + y.c
  d := x.d + y.d
  e := x.e + y.e
  f := x.f + y.f
  g := x.g + y.g
  h := x.h + y.h

/-- R182, R185: the digest's bytes, each word as `n` bytes. -/
def Sha2State.bytes {w : Nat} (n : Nat) (x : Sha2State w) : List Byte :=
  be n x.a.toNat ++ be n x.b.toNat ++ be n x.c.toNat ++ be n x.d.toNat ++
    be n x.e.toNat ++ be n x.f.toNat ++ be n x.g.toNat ++ be n x.h.toNat

/-! ### SHA256 -/

/-- R181: the initial state of SHA256. -/
def sha256Init : Sha2State 32 where
  a := 0x6a09e667
  b := 0xbb67ae85
  c := 0x3c6ef372
  d := 0xa54ff53a
  e := 0x510e527f
  f := 0x9b05688c
  g := 0x1f83d9ab
  h := 0x5be0cd19

/-- R181: the round constants of SHA256, one number for each line of the rule's table, eight constants a line. -/
def sha256K : List (BitVec 32) :=
  [0x428a2f98_71374491_b5c0fbcf_e9b5dba5_3956c25b_59f111f1_923f82a4_ab1c5ed5,
   0xd807aa98_12835b01_243185be_550c7dc3_72be5d74_80deb1fe_9bdc06a7_c19bf174,
   0xe49b69c1_efbe4786_0fc19dc6_240ca1cc_2de92c6f_4a7484aa_5cb0a9dc_76f988da,
   0x983e5152_a831c66d_b00327c8_bf597fc7_c6e00bf3_d5a79147_06ca6351_14292967,
   0x27b70a85_2e1b2138_4d2c6dfc_53380d13_650a7354_766a0abb_81c2c92e_92722c85,
   0xa2bfe8a1_a81a664b_c24b8b70_c76c51a3_d192e819_d6990624_f40e3585_106aa070,
   0x19a4c116_1e376c08_2748774c_34b0bcb5_391c0cb3_4ed8aa4a_5b9cca4f_682e6ff3,
   0x748f82ee_78a5636f_84c87814_8cc70208_90befffa_a4506ceb_bef9a3f7_c67178f2].flatMap (lineWords 32 8)

/-- R182: `S0` of SHA256. -/
def sha256S0 (x : BitVec 32) : BitVec 32 := x.rotateRight 2 ^^^ x.rotateRight 13 ^^^ x.rotateRight 22

/-- R182: `S1` of SHA256. -/
def sha256S1 (x : BitVec 32) : BitVec 32 := x.rotateRight 6 ^^^ x.rotateRight 11 ^^^ x.rotateRight 25

/-- R182: `s0` of SHA256. -/
def sha256s0 (x : BitVec 32) : BitVec 32 := x.rotateRight 7 ^^^ x.rotateRight 18 ^^^ x >>> 3

/-- R182: `s1` of SHA256. -/
def sha256s1 (x : BitVec 32) : BitVec 32 := x.rotateRight 17 ^^^ x.rotateRight 19 ^^^ x >>> 10

/-- R182: `W[0..63]` of a 64-byte block. -/
def sha256Schedule (block : List Byte) : List (BitVec 32) :=
  (sha2Extend sha256s0 sha256s1 48 (beWords 4 32 16 block).reverse).reverse

/-- R182: one block of SHA256. -/
def sha256Compress (h : Sha2State 32) (block : List Byte) : Sha2State 32 :=
  h.add ((sha256K.zip (sha256Schedule block)).foldl (sha2Round sha256S0 sha256S1) h)

/-- R182: `SHA256(m)`, 32 bytes. -/
def sha256 (m : List Byte) : List Byte :=
  let p := pad64 m
  ((blocksOf 64 (p.length / 64) p).foldl sha256Compress sha256Init).bytes 4

/-! ### SHA512 -/

/-- R184: the initial state of SHA512. -/
def sha512Init : Sha2State 64 where
  a := 0x6a09e667f3bcc908
  b := 0xbb67ae8584caa73b
  c := 0x3c6ef372fe94f82b
  d := 0xa54ff53a5f1d36f1
  e := 0x510e527fade682d1
  f := 0x9b05688c2b3e6c1f
  g := 0x1f83d9abfb41bd6b
  h := 0x5be0cd19137e2179

/-- R184: the round constants of SHA512, one number for each line of the rule's table, four constants a line. -/
def sha512K : List (BitVec 64) :=
  [0x428a2f98d728ae22_7137449123ef65cd_b5c0fbcfec4d3b2f_e9b5dba58189dbbc,
   0x3956c25bf348b538_59f111f1b605d019_923f82a4af194f9b_ab1c5ed5da6d8118,
   0xd807aa98a3030242_12835b0145706fbe_243185be4ee4b28c_550c7dc3d5ffb4e2,
   0x72be5d74f27b896f_80deb1fe3b1696b1_9bdc06a725c71235_c19bf174cf692694,
   0xe49b69c19ef14ad2_efbe4786384f25e3_0fc19dc68b8cd5b5_240ca1cc77ac9c65,
   0x2de92c6f592b0275_4a7484aa6ea6e483_5cb0a9dcbd41fbd4_76f988da831153b5,
   0x983e5152ee66dfab_a831c66d2db43210_b00327c898fb213f_bf597fc7beef0ee4,
   0xc6e00bf33da88fc2_d5a79147930aa725_06ca6351e003826f_142929670a0e6e70,
   0x27b70a8546d22ffc_2e1b21385c26c926_4d2c6dfc5ac42aed_53380d139d95b3df,
   0x650a73548baf63de_766a0abb3c77b2a8_81c2c92e47edaee6_92722c851482353b,
   0xa2bfe8a14cf10364_a81a664bbc423001_c24b8b70d0f89791_c76c51a30654be30,
   0xd192e819d6ef5218_d69906245565a910_f40e35855771202a_106aa07032bbd1b8,
   0x19a4c116b8d2d0c8_1e376c085141ab53_2748774cdf8eeb99_34b0bcb5e19b48a8,
   0x391c0cb3c5c95a63_4ed8aa4ae3418acb_5b9cca4f7763e373_682e6ff3d6b2b8a3,
   0x748f82ee5defb2fc_78a5636f43172f60_84c87814a1f0ab72_8cc702081a6439ec,
   0x90befffa23631e28_a4506cebde82bde9_bef9a3f7b2c67915_c67178f2e372532b,
   0xca273eceea26619c_d186b8c721c0c207_eada7dd6cde0eb1e_f57d4f7fee6ed178,
   0x06f067aa72176fba_0a637dc5a2c898a6_113f9804bef90dae_1b710b35131c471b,
   0x28db77f523047d84_32caab7b40c72493_3c9ebe0a15c9bebc_431d67c49c100d4c,
   0x4cc5d4becb3e42b6_597f299cfc657e2a_5fcb6fab3ad6faec_6c44198c4a475817].flatMap (lineWords 64 4)

/-- R185: `S0` of SHA512. -/
def sha512S0 (x : BitVec 64) : BitVec 64 := x.rotateRight 28 ^^^ x.rotateRight 34 ^^^ x.rotateRight 39

/-- R185: `S1` of SHA512. -/
def sha512S1 (x : BitVec 64) : BitVec 64 := x.rotateRight 14 ^^^ x.rotateRight 18 ^^^ x.rotateRight 41

/-- R185: `s0` of SHA512. -/
def sha512s0 (x : BitVec 64) : BitVec 64 := x.rotateRight 1 ^^^ x.rotateRight 8 ^^^ x >>> 7

/-- R185: `s1` of SHA512. -/
def sha512s1 (x : BitVec 64) : BitVec 64 := x.rotateRight 19 ^^^ x.rotateRight 61 ^^^ x >>> 6

/-- R185: `W[0..79]` of a 128-byte block. -/
def sha512Schedule (block : List Byte) : List (BitVec 64) :=
  (sha2Extend sha512s0 sha512s1 64 (beWords 8 64 16 block).reverse).reverse

/-- R185: one block of SHA512. -/
def sha512Compress (h : Sha2State 64) (block : List Byte) : Sha2State 64 :=
  h.add ((sha512K.zip (sha512Schedule block)).foldl (sha2Round sha512S0 sha512S1) h)

/-- R185: `SHA512(m)`, 64 bytes. -/
def sha512 (m : List Byte) : List Byte :=
  let p := pad128 m
  ((blocksOf 128 (p.length / 128) p).foldl sha512Compress sha512Init).bytes 8

/-! ## The hash table (R175) and HMAC (R176) -/

/-- R175: the block size of a hash in bytes. -/
def Alg.blen : Alg → Nat
  | .sha1 => 64
  | .sha256 => 64
  | .sha512 => 128

/-- R175: the digest size of a hash in bytes. -/
def Alg.hlen : Alg → Nat
  | .sha1 => 20
  | .sha256 => 32
  | .sha512 => 64

/-- R175, R186: the hash function of an enumerated hash. -/
def Alg.hash : Alg → List Byte → List Byte
  | .sha1 => Machine.sha1
  | .sha256 => Machine.sha256
  | .sha512 => Machine.sha512

/-- R176: the key as it is, or its hash when it is longer than a block. -/
def hmacShortKey (alg : Alg) (key : List Byte) : List Byte :=
  if key.length ≤ alg.blen then key else alg.hash key

/-- R176: `k0`, the key brought to exactly `blen` bytes. -/
def hmacKey (alg : Alg) (key : List Byte) : List Byte :=
  hmacShortKey alg key ++ List.replicate (alg.blen - (hmacShortKey alg key).length) 0

/-- R176: `HMAC(alg, key, msg)`. -/
def hmac (alg : Alg) (key msg : List Byte) : List Byte :=
  let k0 := hmacKey alg key
  alg.hash (k0.map (· ^^^ 0x5C) ++ alg.hash (k0.map (· ^^^ 0x36) ++ msg))

end Sys2Proof.Machine
end

