-- ==== Sys2Proof/Machine/Hotp.lean ====
section
/-! DEFINITION. HOTPEngine: HMAC with dynamic truncation, step by step, and the command `HOTP` (43_hotpengine.md). -/

namespace Sys2Proof.Machine

/-- R157: the counter as eight bytes, most significant first. -/
def counterBytes (c : Nat) : List Byte := be 8 c

/-- R159: the low four bits of the last digest byte. -/
def truncOffset (h : List Byte) : Nat := (h.getD (h.length - 1) 0).toNat % 16

/-- R160: the four digest bytes from the offset on, big-endian. -/
def truncated (h : List Byte) : Nat := ube ((h.drop (truncOffset h)).take 4)

/-- R161: the truncated value with bit 31 cleared. -/
def codeInt (h : List Byte) : Nat := truncated h % 2 ^ 31

/-- R162: the decimal reduction. -/
def otpNumeric (h : List Byte) (digits : Nat) : Nat := codeInt h % 10 ^ digits

/-- R163: the decimal numeral of `n` in exactly `d` ASCII digits, most significant first. -/
def decimal : Nat → Nat → List Byte
  | 0, _ => []
  | d + 1, n => BitVec.ofNat 8 (0x30 + n / 10 ^ d % 10) :: decimal d n

/-- R157 to R162: `otp_numeric` for a counter in range. -/
def otpNumber (x : HotpArgs) (c : Nat) : Nat := otpNumeric (hmac x.alg x.key (counterBytes c)) x.digits

/-- R163: `code` for a counter in range. -/
def otpCode (x : HotpArgs) (c : Nat) : List Byte := decimal x.digits (otpNumber x c)

/-- R155, R156: `hotp`; none is `InvalidParameter`, a counter outside `[0, 2^64)`. -/
def hotp (x : HotpArgs) (c : Int) : Option (Nat × List Byte) :=
  if c < 0 ∨ 2 ^ 64 ≤ c then none else some (otpNumber x c.toNat, otpCode x c.toNat)

/-- R166: `CODE` and `CODESTR` written together. -/
def State.setCode (s : State) (n : Nat) (code : List Byte) : State :=
  (s.setReg .code (BitVec.ofNat 64 n)).setBuf .codestr code

/-- R165: `HOTP`. -/
def execHotp (s : State) : Host.Outcome State Fault Refusal :=
  if s.status.cfgValid = false then .next (s.raise .noConfig)
  else
    match s.hotpArgs with
    | none => .fault .hotpOutsideDomain
    | some x =>
      match hotp x s.counterOperand with
      | none => .next (s.raise .invalidParameter)
      | some (n, code) => .next (s.setCode n code).succeed

end Sys2Proof.Machine
end

