-- ==== Sys2Proof/Machine/Totp.lean ====
section
/-! DEFINITION. TOTPVerifier: generation and windowed verification, the commands `GEN` and `VERIFY` (45_totpverifier.md). -/

namespace Sys2Proof.Machine

/-- R201: `GEN`. -/
def execGen (w : Bool) (s : State) : Host.Outcome State Fault Refusal :=
  if s.status.cfgValid = false then .next (s.raise .noConfig)
  else if s64 s.regs.step ≤ 0 then .fault .stepNotPositive
  else
    match s.hotpArgs with
    | none => .fault .hotpOutsideDomain
    | some x =>
      let (ts, s₁) := s.timestamp w
      let c := counterOf (s64 ts) (s64 s.regs.t0) (s64 s.regs.step)
      let rem := timeRemaining (s64 ts) (s64 s.regs.t0) (s64 s.regs.step)
      match hotp x c with
      | none => .next (s₁.raise .invalidParameter)
      | some (n, code) =>
        .next ((((s₁.setReg .ts ts).setCounter c).setReg .rem (u64 rem)).setCode n code).succeed

/-- R202, R204, R205: whether one of the `n` counters from `lo` on has the candidate as its code. The order of the
counters and an early exit do not change the result (R202, R212). -/
def windowMatch (x : HotpArgs) (cand : List Byte) : Nat → Nat → Bool
  | _, 0 => false
  | lo, n + 1 => otpCode x lo == cand || windowMatch x cand (lo + 1) n

/-- R205: `VERIFY`. -/
def execVerify (w : Bool) (s : State) : Host.Outcome State Fault Refusal :=
  if s.status.cfgValid = false then .next (s.raiseVerify .noConfig)
  else if Config.candCap < s.regs.candLen.toNat then .next (s.raiseVerify .capacity)
  else if s64 s.regs.window < 0 then .next (s.raiseVerify .invalidParameter)
  else if s64 s.regs.step ≤ 0 then .fault .stepNotPositive
  else
    match s.hotpArgs with
    | none => .fault .hotpOutsideDomain
    | some x =>
      let (ts, s₁) := s.timestamp w
      let win := s64 s.regs.window
      let cur := counterOf (s64 ts) (s64 s.regs.t0) (s64 s.regs.step)
      if cur - win < 0 ∨ 2 ^ 64 ≤ cur + win then .next (s₁.raiseVerify .invalidParameter)
      else
        let m := windowMatch x s.candOperand (cur - win).toNat (2 * win.toNat + 1)
        .next ((s₁.setReg .ts ts).setMatch m).succeed

end Sys2Proof.Machine
end

