-- ==== Sys2Proof/Machine/Dispatch.lean ====
section
/-! DEFINITION. The meaning of each command: its completion step (70_reset_and_hazards.md R272), one arm per row of the opcode table. -/

namespace Sys2Proof.Machine

def exec (i : Instr) (s : State) : Host.Outcome State Fault Refusal :=
  match i with
  | .mkcfg => Sys2Proof.Machine.execMkcfg s
  | .gen w => Sys2Proof.Machine.execGen w s
  | .verify w => Sys2Proof.Machine.execVerify w s
  | .gensec => Sys2Proof.Machine.execGensec s
  | .b32dec => Sys2Proof.Machine.execB32dec s
  | .b32enc => Sys2Proof.Machine.execB32enc s
  | .clock w => Sys2Proof.Machine.execClock w s
  | .hotp => Sys2Proof.Machine.execHotp s
  | .rand => Sys2Proof.Machine.execRand s

end Sys2Proof.Machine
end

