-- ==== Sys2Proof/Machine/Port.lean ====
section
/-! DEFINITION. The host port: the address map and the effect of one transaction (20_memory.md R60 to R79). -/

namespace Sys2Proof.Machine

/-- R21: what a register slot holds. -/
def slotPlace : Nat → Place
  | 0 => .cmd
  | 1 => .status
  | 2 => .reg .ts
  | 3 => .reg .t0
  | 4 => .reg .step
  | 5 => .reg .digits
  | 6 => .reg .alg
  | 7 => .reg .window
  | 8 => .reg .len
  | 9 => .reg .ctr
  | 10 => .reg .rem
  | 11 => .reg .code
  | 12 => .reg .textLen
  | 13 => .reg .keyLen
  | 14 => .reg .candLen
  | _ => .reserved

/-- R63: the address map, for an aligned offset in the window. -/
def portPlace (addr : Nat) : Place :=
  if addr < 0x080 then slotPlace (addr / 8)
  else if addr < 0x090 then .buf .cand ((addr - 0x080) / 8)
  else if addr < 0x0A0 then .buf .codestr ((addr - 0x090) / 8)
  else if addr < 0x100 then .reserved
  else if addr < 0x200 then .buf .text ((addr - 0x100) / 8)
  else if addr < 0x2A0 then .buf .key ((addr - 0x200) / 8)
  else .reserved

/-- R67: the accesses that exist on the port: aligned, eight bytes wide, inside the window. -/
def portAccess (addr width : Nat) : Bool := addr % 8 == 0 && width == 8 && decide (addr < Config.windowBytes)

/-- R21: `REM` and `CODE` are read-only to the host. -/
def Reg.hostWritable : Reg → Bool
  | .rem => false
  | .code => false
  | _ => true

/-- R30: the config-bearing registers. -/
def Reg.configBearing : Reg → Bool
  | .t0 | .step | .digits | .alg | .textLen | .keyLen => true
  | _ => false

/-- R32: `CODESTR` is read-only to the host. -/
def Buf.hostWritable : Buf → Bool
  | .codestr => false
  | _ => true

/-- R30: the config-bearing buffers. -/
def Buf.configBearing : Buf → Bool
  | .text | .key => true
  | _ => false

/-- R61, R64, R65, R70, R71: the word a place reads as. -/
def State.portWord (s : State) : Place → Word
  | .cmd => 0
  | .status => s.status.word
  | .reg r => s.regs.get r
  | .buf b k => leWord (s.mem.bytes (b.base + 8 * k) 8)
  | .reserved => 0

/-- The host receives a word (log 2). -/
def State.reply (s : State) (v : Word) : State := { s with env := { s.env with replies := v :: s.env.replies } }

/-- R72: a read the spec leaves unspecified returns a free value (log 5). -/
def State.replyFree (s : State) : State :=
  ({ s with env := { s.env with draws := s.env.draws + 1 } }).reply (Config.busyRead s.env.draws)

/-- R61, R72: a read changes nothing in the block. -/
def hostRead (addr width : Nat) (s : State) : Host.Outcome State Fault Refusal :=
  if portAccess addr width = false then .refused .noSuchAccess
  else if s.status.busy = true ∧ portPlace addr ≠ .status then .next s.replyFree
  else .next (s.reply (s.portWord (portPlace addr)))

/-- R34, R73: a `CMD` write starts a command unless `FATAL = 1`. -/
def State.writeCmd (s : State) (v : Word) : State := if s.status.fatal then s else s.startCommand v

/-- R22, R26, R69, R71: a register write and its side effects. -/
def State.writeReg (s : State) (r : Reg) (v : Word) : State :=
  if r.hostWritable = false then s
  else
    let s₁ := s.setReg r v
    let s₂ := if r.configBearing then s₁.clearCfgValid else s₁
    if r = .ctr then s₂.setCneg false else s₂

/-- R65, R69, R71: a write of word `k` of a buffer and its side effect. -/
def State.writeBufWord (s : State) (b : Buf) (k : Nat) (v : Word) : State :=
  if b.hostWritable = false then s
  else
    let s₁ := { s with mem := s.mem.write (b.base + 8 * k) (leBytes v) }
    if b.configBearing then s₁.clearCfgValid else s₁

/-- R62, R69 to R71: a write that is not dropped for `BUSY = 1`. -/
def State.portWrite (s : State) (v : Word) : Place → State
  | .cmd => s.writeCmd v
  | .status => s
  | .reg r => s.writeReg r v
  | .buf b k => s.writeBufWord b k v
  | .reserved => s

/-- R62, R72: a write; while `BUSY = 1` every write is dropped. -/
def hostWrite (addr width : Nat) (v : Word) (s : State) : Host.Outcome State Fault Refusal :=
  if portAccess addr width = false then .refused .noSuchAccess
  else if s.status.busy then .next s
  else .next (s.portWrite v (portPlace addr))

/-- One host transaction, one step (R60, R68). -/
def hostTurn (t : Transaction) (s : State) : Host.Outcome State Fault Refusal :=
  match t with
  | .read a n => hostRead a n s
  | .write a n v => hostWrite a n v s

end Sys2Proof.Machine
end

