-- ==== Sys2Proof/Machine/Step.lean ====
section
/-! DEFINITION. One step: the completion of the pending command, one host transaction, or the reset input
(70_reset_and_hazards.md R265, R272; 20_memory.md R75). -/

namespace Sys2Proof.Machine

/-- R94, R272: the completion step: decode `PEND`, run the command; an illegal word raises `IllegalCommand`. -/
def complete (s : State) : Host.Outcome State Fault Refusal :=
  match decode s.pend with
  | none => .next (s.raise .illegalCommand)
  | some i => exec i s

/-- The engine's turn: the completion step is enabled while `BUSY = 1` and only then (R41, R272). -/
def engineTurn (s : State) : Host.Outcome State Fault Refusal :=
  if s.status.busy then complete s else .next s

/-- One step: the first turn of the schedule; with no turn left the engine completes what is pending (log 1). -/
def step (s : State) : Host.Outcome State Fault Refusal :=
  match s.env.schedule with
  | [] => engineTurn s
  | .engine :: ts => engineTurn (s.withSchedule ts)
  | .host t :: ts => hostTurn t (s.withSchedule ts)
  | .reset :: ts => .next (s.withSchedule ts).resetInput

/-- The state in which the word with bits `w` is the command the next step completes: `PEND` holds it, `BUSY = 1`, and
the engine's turn is next (log 6). `nbits` is at most 64; the bits above it are 0 in `w`. -/
def State.withFetchWord (s : State) (nbits w : Nat) : State :=
  (s.startCommand (BitVec.ofNat 64 (w % 2 ^ nbits))).withSchedule (.engine :: s.env.schedule)

end Sys2Proof.Machine
end

