-- ==== Sys2Proof/Safety.lean ====
section
/-! DEFINITION. The terms claims are stated in: which runs end well, the machine's invariants, and the frames of the commands. -/

namespace Sys2Proof.Machine

/-! ## Ends of runs -/

/-- R273: a run is at its end when nothing is scheduled and no completion is pending. -/
def State.final (s : State) : Prop := s.env.schedule = [] ∧ s.status.busy = false

/-- R244, R273: an end with `FATAL = 1` is final only as a failure. -/
def State.goodFinal (s : State) : Prop := s.final ∧ s.status.fatal = false

/-! ## Invariants -/

/-- R29: with `CFG_VALID = 1` the registers and buffers are a constructed configuration. -/
def State.configInv (s : State) : Prop :=
  s.status.cfgValid = true →
    0 < s64 s.regs.step ∧ 6 ≤ s64 s.regs.digits ∧ s64 s.regs.digits ≤ 10 ∧
    (Alg.ofCode s.regs.alg).isSome = true ∧ s.regs.textLen.toNat ≤ Config.textCap ∧
    s.regs.keyLen.toNat ≤ Config.keyCap ∧ b32decode s.textOperand = some s.keyOperand

/-- R166: `CODESTR` is the zero-padded numeral of `CODE` in 6 to 10 digits, or both are still at reset. -/
def State.codeInv (s : State) : Prop :=
  (s.regs.code = 0 ∧ ∀ i < Config.codestrCap, s.bufByte .codestr i = 0) ∨
    ∃ d, 6 ≤ d ∧ d ≤ 10 ∧ s.regs.code.toNat < 10 ^ d ∧
      ∀ i < Config.codestrCap, s.bufByte .codestr i = (decimal d s.regs.code.toNat).getD i 0

/-- R27, R28, R146, R236: ranges that no step leaves: `ERR` is 0 to 8, `CODE` is below `2^31`, `REM` is below `2^63`,
a negative counter is not `-2^64`, and `BUSY` and `FATAL` are never 1 together. -/
def State.rangeInv (s : State) : Prop :=
  s.status.err.toNat ≤ 8 ∧ s.regs.code.toNat < 2 ^ 31 ∧ s.regs.rem.toNat < 2 ^ 63 ∧
    (s.status.cneg = true → s.regs.ctr ≠ 0) ∧ ¬(s.status.busy = true ∧ s.status.fatal = true)

/-- The machine's invariant: memory in canonical form, a constructed configuration behind `CFG_VALID`, `CODE` and
`CODESTR` in agreement, every field in its range. -/
def State.inv (s : State) : Prop := s.mem.wf ∧ s.configInv ∧ s.codeInv ∧ s.rangeInv

/-! ## Frames -/

/-- The block's own state, everything but what stands outside it, is the same. -/
def State.sameBlock (s t : State) : Prop :=
  t.status = s.status ∧ t.regs = s.regs ∧ t.mem = s.mem ∧ t.pend = s.pend

/-- Every byte of memory outside a buffer reads as before. -/
def State.sameOutside (s t : State) (b : Buf) : Prop :=
  ∀ a, a < b.base ∨ b.base + b.cap ≤ a → t.mem.read a = s.mem.read a

/-- Every byte of memory reads as before. -/
def State.sameMemory (s t : State) : Prop := ∀ a, t.mem.read a = s.mem.read a

/-- R33: a buffer holds a byte string, zero bytes after it. -/
def State.holds (t : State) (b : Buf) (x : List Byte) : Prop := ∀ i < b.cap, t.bufByte b i = x.getD i 0

/-- R241: the state a raised error leaves: the error code, `BUSY` cleared, everything else as it was. -/
def State.errorReport (s : State) (e : BitVec 4) : State :=
  { s with status := { s.status with busy := false, err := e } }

/-- R35, R241: the state a raised error of `VERIFY` leaves: also `MATCH` cleared. -/
def State.verifyErrorReport (s : State) (e : BitVec 4) : State :=
  { s with status := { s.status with busy := false, err := e, matched := false } }

/-- R223, R243: the state an entropy failure leaves. -/
def State.fatalReport (s : State) : State :=
  { s with status := { s.status with busy := false, err := 8, fatal := true } }

/-! ## Words and places, by arithmetic -/

/-- R94: the three grounds for an illegal command word, on the word as a number. -/
def illegalBits (v : Word) : Prop :=
  v.toNat / 512 ≠ 0 ∨ v.toNat % 256 ∉ [0x01, 0x02, 0x03, 0x04, 0x10, 0x11, 0x12, 0x13, 0x14] ∨
    (v.toNat / 256 % 2 = 1 ∧ v.toNat % 256 ∉ [0x02, 0x03, 0x12])

/-- R21: the slot number of a register. -/
def Reg.slot : Reg → Nat
  | .ts => 2
  | .t0 => 3
  | .step => 4
  | .digits => 5
  | .alg => 6
  | .window => 7
  | .len => 8
  | .ctr => 9
  | .rem => 10
  | .code => 11
  | .textLen => 12
  | .keyLen => 13
  | .candLen => 14

/-- R70: the reserved offsets. -/
def reservedOffset (a : Nat) : Prop := a = 0x078 ∨ (0x0A0 ≤ a ∧ a < 0x100) ∨ (0x2A0 ≤ a ∧ a < 0x1000)

/-! ## Outcomes of the commands -/

/-- R221, R222: `t` is the block of `s` after a generated secret `b` is stored: the bytes in `KEY`, their Base32 text in
`TEXT`, both lengths, `CFG_VALID` cleared, no error, and nothing else. -/
def State.storesSecret (s : State) (b : List Byte) (t : State) : Prop :=
  t.status = { s.status with busy := false, err := 0, cfgValid := false } ∧
    t.regs = { s.regs with
      keyLen := BitVec.ofNat 64 b.length
      textLen := BitVec.ofNat 64 (8 * ((b.length + 4) / 5)) } ∧
    t.holds .key b ∧ t.holds .text (b32encode b) ∧
    (∀ a, a < Buf.text.base ∨ Buf.text.base + Buf.text.cap ≤ a → a < Buf.key.base ∨ Buf.key.base + Buf.key.cap ≤ a →
      t.mem.read a = s.mem.read a) ∧
    t.pend = s.pend

/-- The arguments of `hotp` in a state whose `ALG` names the hash `a` (R155). -/
def State.configArgs (s : State) (a : Alg) : HotpArgs where
  key := s.keyOperand
  alg := a
  digits := (s64 s.regs.digits).toNat

/-- R30: the config-bearing registers and buffers of two states are the same, but for `KEY` and `KEY_LEN`. -/
def State.sameConfigBearing (s t : State) : Prop :=
  t.regs.t0 = s.regs.t0 ∧ t.regs.step = s.regs.step ∧ t.regs.digits = s.regs.digits ∧ t.regs.alg = s.regs.alg ∧
    t.regs.textLen = s.regs.textLen ∧ ∀ i < Buf.text.cap, t.bufByte .text i = s.bufByte .text i

/-- R30: `KEY` and `KEY_LEN` of two states are the same. -/
def State.sameKey (s t : State) : Prop :=
  t.regs.keyLen = s.regs.keyLen ∧ ∀ i < Buf.key.cap, t.bufByte .key i = s.bufByte .key i

/-- The engine moves next: a command is in flight and no other turn comes first. -/
def State.engineNext (s : State) : Prop :=
  s.status.busy = true ∧ (s.env.schedule = [] ∨ ∃ ts, s.env.schedule = .engine :: ts)

/-- The reset input moves next. -/
def State.resetNext (s : State) : Prop := ∃ ts, s.env.schedule = .reset :: ts

end Sys2Proof.Machine
end

