-- ==== Sys2Proof/Certificates/Slice0/Obligations.lean ====
section
/-! DEFINITION. The statements about UTG-CORE, from the numbered rules of spec/. -/

open Sys2Proof Sys2Proof.Machine

/-! ## Encoding -/

/-- R92: the twelve legal words, written out from the opcode map, decode to their commands. -/
def Obligations.LegalWordsDecode : Prop :=
  decode 0x001 = some .mkcfg ∧ decode 0x002 = some (.gen false) ∧ decode 0x102 = some (.gen true) ∧
    decode 0x003 = some (.verify false) ∧ decode 0x103 = some (.verify true) ∧ decode 0x004 = some .gensec ∧
    decode 0x010 = some .b32dec ∧ decode 0x011 = some .b32enc ∧ decode 0x012 = some (.clock false) ∧
    decode 0x112 = some (.clock true) ∧ decode 0x013 = some .hotp ∧ decode 0x014 = some .rand

/-- R92: a word decodes to a row's command exactly when it agrees with the row's match under the row's mask. -/
def Obligations.OpcodeMapMatchMask : Prop :=
  ∀ v : Word,
    (decode v = some .mkcfg ↔ v &&& 0xFFFFFFFFFFFFFFFF = 0x1) ∧
    ((∃ w, decode v = some (.gen w)) ↔ v &&& 0xFFFFFFFFFFFFFEFF = 0x2) ∧
    ((∃ w, decode v = some (.verify w)) ↔ v &&& 0xFFFFFFFFFFFFFEFF = 0x3) ∧
    (decode v = some .gensec ↔ v &&& 0xFFFFFFFFFFFFFFFF = 0x4) ∧
    (decode v = some .b32dec ↔ v &&& 0xFFFFFFFFFFFFFFFF = 0x10) ∧
    (decode v = some .b32enc ↔ v &&& 0xFFFFFFFFFFFFFFFF = 0x11) ∧
    ((∃ w, decode v = some (.clock w)) ↔ v &&& 0xFFFFFFFFFFFFFEFF = 0x12) ∧
    (decode v = some .hotp ↔ v &&& 0xFFFFFFFFFFFFFFFF = 0x13) ∧
    (decode v = some .rand ↔ v &&& 0xFFFFFFFFFFFFFFFF = 0x14)

/-- R92, R95: over all 64-bit words, a word decodes to a command exactly when it is the command's encoding. -/
def Obligations.DecodeEncodeAgree : Prop :=
  ∀ (v : Word) (i : Instr), decode v = some i ↔ encode i = v

/-- R94: an illegal word starts a command like any other; its completion writes `ERR = 6` and nothing else. -/
def Obligations.IllegalWordRaisesIllegalCommand : Prop :=
  ∀ (v : Word),
    (decode v = none ↔ illegalBits v) ∧
    ∀ s : State, illegalBits v →
      (s.status.busy = false → s.status.fatal = false →
        hostWrite 0 8 v s = .next { s with status := { s.status with busy := true }, pend := v }) ∧
      (s.pend = v → complete s = .next (s.errorReport 6))

/-! ## Steps -/

/-- R94, R272: when a command is in flight and the engine moves next, the step is the meaning of the decoded command, on
the state without that turn; for an illegal word it is the raise of `IllegalCommand` (the schedule is the model's own,
log 1). -/
def Obligations.StepRunsDecodedCommand : Prop :=
  ∀ s : State, s.engineNext →
    (∀ i, decode s.pend = some i → step s = exec i (s.withSchedule s.env.schedule.tail)) ∧
    (illegalBits s.pend → step s = .next ((s.withSchedule s.env.schedule.tail).errorReport 6))

/-- The model's schedule (log 1): the host's turn is its read or its write on the state without that turn, the engine has
nothing to complete while `BUSY = 0`, and with no turn left an idle block stays as it is. -/
def Obligations.ScheduledTurnsTaken : Prop :=
  ∀ (s : State) (ts : List Turn),
    (∀ a n, s.env.schedule = .host (.read a n) :: ts → step s = hostRead a n (s.withSchedule ts)) ∧
    (∀ a n v, s.env.schedule = .host (.write a n v) :: ts → step s = hostWrite a n v (s.withSchedule ts)) ∧
    (s.env.schedule = .engine :: ts → s.status.busy = false → step s = .next (s.withSchedule ts)) ∧
    (s.env.schedule = [] → s.status.busy = false → step s = .next s)

/-- R43: the reset input puts every piece of the block's state at its reset value, whatever the state was, and leaves
what is outside the block (that reset is a turn of the schedule is the model's own, log 1). -/
def Obligations.ResetPutsEveryValue : Prop :=
  ∀ (s : State) (ts : List Turn), s.env.schedule = .reset :: ts →
    ∃ t, step s = .next t ∧
      t.status = { busy := false, cfgValid := false, matched := false, cneg := false, fatal := false, err := 0 } ∧
      t.status.word = 0 ∧
      t.regs = { ts := 0, t0 := 0, step := 30, digits := 6, alg := 0, window := 1, len := 32, ctr := 0, rem := 0,
                 code := 0, textLen := 0, keyLen := 0, candLen := 0 } ∧
      (∀ b i, t.bufByte b i = 0) ∧ t.pend = 0 ∧
      t.env = { s.env with schedule := ts } ∧
      t.status = State.reset.status ∧ t.regs = State.reset.regs ∧ t.mem = State.reset.mem

/-! ## The host port -/

/-- R34: a `CMD` write starts a command when `BUSY = 0` and `FATAL = 0`, is dropped otherwise; `CMD` reads 0. -/
def Obligations.CommandWriteStarts : Prop :=
  ∀ (s : State) (v : Word),
    (s.status.busy = false → s.status.fatal = false →
      hostWrite 0x000 8 v s = .next { s with status := { s.status with busy := true }, pend := v }) ∧
    (s.status.busy = true ∨ s.status.fatal = true → hostWrite 0x000 8 v s = .next s) ∧
    (s.status.busy = false →
      hostRead 0x000 8 s = .next { s with env := { s.env with replies := 0 :: s.env.replies } })

/-- R21, R64: outside a busy interval a register's slot reads as the register's pattern, and the read changes nothing
but the reply (the list of replies is the model's own, log 2). -/
def Obligations.RegisterSlotReads : Prop :=
  ∀ (s : State) (r : Reg), s.status.busy = false →
    hostRead (8 * r.slot) 8 s = .next { s with env := { s.env with replies := s.regs.get r :: s.env.replies } }

/-- R28, R64, R72: `STATUS` always reads as the word of its fields, reserved bits 0. -/
def Obligations.StatusWordFields : Prop :=
  ∀ s : State, ∃ v : Word,
    hostRead 0x008 8 s = .next { s with env := { s.env with replies := v :: s.env.replies } } ∧
    v.getLsbD 0 = s.status.busy ∧ v.getLsbD 1 = s.status.cfgValid ∧ v.getLsbD 2 = s.status.matched ∧
    v.getLsbD 3 = s.status.cneg ∧ v.getLsbD 4 = s.status.fatal ∧ v.extractLsb' 8 4 = s.status.err ∧
    ∀ i, i = 5 ∨ i = 6 ∨ i = 7 ∨ 12 ≤ i → v.getLsbD i = false

/-- R65: word `k` of a buffer carries byte `8 k + j` in bits `8 j + 7 .. 8 j`, for reads and for writes. -/
def Obligations.BufferLanesLittleEndian : Prop :=
  ∀ (s : State) (b : Buf) (k : Nat), s.status.busy = false → 8 * k + 8 ≤ b.cap →
    (∃ v, hostRead (b.base + 8 * k) 8 s = .next { s with env := { s.env with replies := v :: s.env.replies } } ∧
      ∀ j < 8, v.extractLsb' (8 * j) 8 = s.bufByte b (8 * k + j)) ∧
    (b ≠ .codestr → ∀ v, ∃ t, hostWrite (b.base + 8 * k) 8 v s = .next t ∧
      (∀ j < 8, t.bufByte b (8 * k + j) = v.extractLsb' (8 * j) 8) ∧
      (∀ a, a < b.base + 8 * k ∨ b.base + 8 * k + 8 ≤ a → t.mem.read a = s.mem.read a) ∧
      t.regs = s.regs ∧ t.pend = s.pend ∧ t.env = s.env)

/-- R69: the side effects of host writes that are not dropped, and that reads have none. -/
def Obligations.HostWriteSideEffects : Prop :=
  ∀ (s : State) (v : Word), s.status.busy = false →
    (s.status.fatal = false →
      hostWrite 0x000 8 v s = .next { s with status := { s.status with busy := true }, pend := v }) ∧
    (∀ r ∈ [Reg.t0, .step, .digits, .alg, .textLen, .keyLen],
      hostWrite (8 * r.slot) 8 v s =
        .next { s with regs := s.regs.set r v, status := { s.status with cfgValid := false } }) ∧
    (∀ b ∈ [Buf.text, .key], ∀ k, 8 * k + 8 ≤ b.cap →
      ∃ t, hostWrite (b.base + 8 * k) 8 v s = .next t ∧ t.status = { s.status with cfgValid := false }) ∧
    hostWrite 0x048 8 v s =
      .next { s with regs := { s.regs with ctr := v }, status := { s.status with cneg := false } } ∧
    (∀ r ∈ [Reg.ts, .window, .len, .candLen],
      hostWrite (8 * r.slot) 8 v s = .next { s with regs := s.regs.set r v }) ∧
    (∀ k < 2, ∃ t, hostWrite (Buf.cand.base + 8 * k) 8 v s = .next t ∧ t.status = s.status) ∧
    ∀ a n t, hostRead a n s = .next t → s.sameBlock t

/-- R70: reserved offsets read as 0 and drop writes. -/
def Obligations.ReservedOffsetsInert : Prop :=
  ∀ (s : State) (a : Nat) (v : Word), a % 8 = 0 → reservedOffset a →
    (s.status.busy = false →
      hostRead a 8 s = .next { s with env := { s.env with replies := 0 :: s.env.replies } }) ∧
    hostWrite a 8 v s = .next s

/-- R71: writes to `STATUS`, `REM`, `CODE` and the words of `CODESTR` are dropped; `CMD` reads as 0. -/
def Obligations.ReadOnlyWritesDropped : Prop :=
  ∀ (s : State) (v : Word),
    (∀ a ∈ [0x008, 0x050, 0x058, 0x090, 0x098], hostWrite a 8 v s = .next s) ∧
    (s.status.busy = false →
      hostRead 0x000 8 s = .next { s with env := { s.env with replies := 0 :: s.env.replies } })

/-- R72: while `BUSY = 1` every write is dropped, `STATUS` reads as the current fields, and any other read returns some
word and changes nothing in the block. -/
def Obligations.BusyIntervalRules : Prop :=
  ∀ (s : State) (a : Nat), s.status.busy = true → a % 8 = 0 → a < 4096 →
    (∀ v, hostWrite a 8 v s = .next s) ∧
    hostRead 0x008 8 s = .next { s with env := { s.env with replies := s.status.word :: s.env.replies } } ∧
    ∃ v t, hostRead a 8 s = .next t ∧ t.env.replies = v :: s.env.replies ∧ s.sameBlock t

/-- R73: while `FATAL = 1` and `BUSY = 0` a `CMD` write is dropped, and every other access does what it does with
`FATAL = 0`. -/
def Obligations.FatalOnlyDropsCommands : Prop :=
  ∀ (s : State) (v : Word), s.status.busy = false → s.status.fatal = true →
    hostWrite 0x000 8 v s = .next s ∧
    ∀ a, a % 8 = 0 → a < 4096 →
      (a ≠ 0 → ∃ t t', hostWrite a 8 v s = .next t ∧
        hostWrite a 8 v { s with status := { s.status with fatal := false } } = .next t' ∧
        t = { t' with status := { t'.status with fatal := true } }) ∧
      (a ≠ 0x008 → ∃ t t', hostRead a 8 s = .next t ∧
        hostRead a 8 { s with status := { s.status with fatal := false } } = .next t' ∧
        t = { t' with status := { t'.status with fatal := true } })

/-- R67: an access that is not an aligned 64-bit word in the window has no step; every other access has one. -/
def Obligations.OnlyAlignedWordsExist : Prop :=
  ∀ (s : State) (a n : Nat) (v : Word),
    (¬(a % 8 = 0 ∧ n = 8 ∧ a < 4096) →
      hostRead a n s = .refused .noSuchAccess ∧ hostWrite a n v s = .refused .noSuchAccess) ∧
    (a % 8 = 0 ∧ n = 8 ∧ a < 4096 → (∃ t, hostRead a n s = .next t) ∧ ∃ t, hostWrite a n v s = .next t)

/-! ## Draws -/

/-- R39, R224: an answer of the entropy source has exactly `n` bytes or is `unavailable`; every byte string of length
`n` and `unavailable` are possible answers; a draw touches nothing of the block (how State lines answers up is the
model's own, log 4). -/
def Obligations.EntropyAnswersFree : Prop :=
  (∀ (s : State) (n : Nat), (∀ b, (s.drawEntropy n).1 = some b → b.length = n) ∧ s.sameBlock (s.drawEntropy n).2) ∧
  (∀ (s : State) (b : List Byte), ∃ e,
    (({ s with env := { s.env with entropy := e } } : State).drawEntropy b.length).1 = some b) ∧
  (∀ (s : State) (n : Nat), ∃ e, (({ s with env := { s.env with entropy := e } } : State).drawEntropy n).1 = none)

/-- R38, R144: `W = 0` uses `TS`; `W = 1` uses one sample of the wall clock, which may be any word, and a sample touches
nothing of the block (how State lines samples up is the model's own, log 3). -/
def Obligations.TimestampOperandSource : Prop :=
  ∀ s : State, s.timestamp false = (s.regs.ts, s) ∧ s.sameBlock (s.timestamp true).2 ∧
    (s.timestamp true).2.env.draws = s.env.draws + 1 ∧
    ∀ v, ∃ c, (({ s with env := { s.env with clock := c } } : State).timestamp true).1 = v

/-! ## MKCFG, B32DEC, B32ENC -/

/-- R110, R239: the checks of `MKCFG` in their order; the first that fails is reported and nothing else is written. -/
def Obligations.MkcfgChecksInOrder : Prop :=
  ∀ s : State,
    (256 < s.regs.textLen.toNat → exec .mkcfg s = .next (s.errorReport 7)) ∧
    (s.regs.textLen.toNat ≤ 256 →
      (b32decode s.textOperand = none → exec .mkcfg s = .next (s.errorReport 1)) ∧
      ∀ r, b32decode s.textOperand = some r →
        (s64 s.regs.step ≤ 0 → exec .mkcfg s = .next (s.errorReport 3)) ∧
        (0 < s64 s.regs.step →
          (s64 s.regs.digits < 6 ∨ 10 < s64 s.regs.digits → exec .mkcfg s = .next (s.errorReport 3)) ∧
          (6 ≤ s64 s.regs.digits → s64 s.regs.digits ≤ 10 → s.regs.alg ∉ [0, 1, 2] →
            exec .mkcfg s = .next (s.errorReport 2))))

/-- R110: when every check passes `MKCFG` stores the decoded key with a zero tail and its length, sets `CFG_VALID`, and
leaves the rest. -/
def Obligations.MkcfgConstructsConfig : Prop :=
  ∀ (s : State) (r : List Byte), s.regs.textLen.toNat ≤ 256 → b32decode s.textOperand = some r →
    0 < s64 s.regs.step → 6 ≤ s64 s.regs.digits → s64 s.regs.digits ≤ 10 → s.regs.alg ∈ [0, 1, 2] →
    ∃ t, exec .mkcfg s = .next t ∧ r.length ≤ 160 ∧
      t.status = { s.status with busy := false, err := 0, cfgValid := true } ∧
      t.regs = { s.regs with keyLen := BitVec.ofNat 64 r.length } ∧
      t.holds .key r ∧ s.sameOutside t .key ∧ t.pend = s.pend ∧ t.env = s.env

/-- R126: `B32DEC`. -/
def Obligations.B32decDecodesText : Prop :=
  ∀ s : State,
    (256 < s.regs.textLen.toNat → exec .b32dec s = .next (s.errorReport 7)) ∧
    (s.regs.textLen.toNat ≤ 256 →
      (b32decode s.textOperand = none → exec .b32dec s = .next (s.errorReport 1)) ∧
      ∀ r, b32decode s.textOperand = some r →
        ∃ t, exec .b32dec s = .next t ∧
          t.status = { s.status with busy := false, err := 0, cfgValid := false } ∧
          t.regs = { s.regs with keyLen := BitVec.ofNat 64 r.length } ∧
          t.holds .key r ∧ s.sameOutside t .key ∧ t.pend = s.pend ∧ t.env = s.env)

/-- R127: `B32ENC`. -/
def Obligations.B32encEncodesKey : Prop :=
  ∀ s : State,
    (160 < s.regs.keyLen.toNat → exec .b32enc s = .next (s.errorReport 7)) ∧
    (s.regs.keyLen.toNat ≤ 160 →
      ∃ t, exec .b32enc s = .next t ∧
        t.status = { s.status with busy := false, err := 0, cfgValid := false } ∧
        t.regs = { s.regs with textLen := BitVec.ofNat 64 (8 * ((s.regs.keyLen.toNat + 4) / 5)) } ∧
        t.holds .text (b32encode s.keyOperand) ∧ s.sameOutside t .text ∧ t.pend = s.pend ∧ t.env = s.env)

/-- R129: decoding an encoding gives the bytes back, with its padding, without it, and in lower case; encoding a decoded
text does not always give the text back. -/
def Obligations.Base32RoundTrip : Prop :=
  (∀ b : List Byte,
    b32decode (b32encode b) = some b ∧
    b32decode ((b32encode b).takeWhile (· != padChar)) = some b ∧
    b32decode ((b32encode b).map fun c => if 0x41 ≤ c.toNat ∧ c.toNat ≤ 0x5A then c + 0x20 else c) = some b) ∧
  ∃ t r, b32decode t = some r ∧ b32encode r ≠ t

/-- R128: a decode of at most 256 characters has at most 160 bytes, an encoding of at most 160 bytes has at most 256
characters (it has `8 * ceil(n / 5)`, R125). -/
def Obligations.Base32Lengths : Prop :=
  (∀ t r, b32decode t = some r → t.length ≤ 256 → r.length ≤ 160) ∧
  ∀ b : List Byte, (b32encode b).length = 8 * ((b.length + 4) / 5) ∧ (b.length ≤ 160 → (b32encode b).length ≤ 256)

/-- R124, R126: a text without `=` whose length is 1, 3 or 6 modulo 8 does not decode. -/
def Obligations.Base32ImpossibleLengths : Prop :=
  ∀ t : List Byte, padChar ∉ t → t.length % 8 ∈ [1, 3, 6] → b32decode t = none

/-! ## CLOCK -/

/-- R145: `CLOCK`: the quotient `q` and remainder `r` with `0 ≤ r < STEP`, the counter's 64 low bits and sign, and the
time remaining; with `STEP ≤ 0` it raises `InvalidParameter`, and that it then takes no sample of the clock is the
model's own choice (log 15). -/
def Obligations.ClockDividesWithFloor : Prop :=
  ∀ (w : Bool) (s : State),
    (s64 s.regs.step ≤ 0 → exec (.clock w) s = .next (s.errorReport 3)) ∧
    (0 < s64 s.regs.step →
      ∃ t q r, exec (.clock w) s = .next t ∧
        s64 (s.timestamp w).1 - s64 s.regs.t0 = q * s64 s.regs.step + r ∧ 0 ≤ r ∧ r < s64 s.regs.step ∧
        t.regs = { s.regs with ts := (s.timestamp w).1, ctr := u64 q, rem := u64 (s64 s.regs.step - r) } ∧
        t.status = { s.status with busy := false, err := 0, cneg := decide (q < 0) } ∧
        s.sameMemory t ∧ t.pend = s.pend ∧ t.env = (s.timestamp w).2.env)

/-- R26, R146: after `CLOCK` the pair `CNEG:CTR` is the exact counter and `REM`, read signed or unsigned, the exact time
remaining, in `[1, STEP]`. -/
def Obligations.ClockPairIsExact : Prop :=
  ∀ (w : Bool) (s t : State), exec (.clock w) s = .next t → t.status.err = 0 →
    t.counterOperand = (s64 t.regs.ts - s64 s.regs.t0).fdiv (s64 s.regs.step) ∧
    s64 t.regs.rem = s64 s.regs.step - (s64 t.regs.ts - s64 s.regs.t0).fmod (s64 s.regs.step) ∧
    (t.regs.rem.toNat : Int) = s64 t.regs.rem ∧ 1 ≤ s64 t.regs.rem ∧ s64 t.regs.rem ≤ s64 s.regs.step ∧
    -(2 ^ 64 - 1) ≤ t.counterOperand ∧ t.counterOperand ≤ 2 ^ 64 - 1

/-- R142: the counter is the floor quotient, so it is non-decreasing in the timestamp, grows by exactly 1 when the
timestamp grows by the step, and each value is held for exactly `time_step` consecutive timestamps. -/
def Obligations.CounterHeldForOneStep : Prop :=
  ∀ ts t0 step c : Int, 0 < step →
    (counterOf ts t0 step = c ↔ t0 + c * step ≤ ts ∧ ts < t0 + (c + 1) * step) ∧
    counterOf (ts + step) t0 step = counterOf ts t0 step + 1 ∧
    ∀ ts', ts ≤ ts' → counterOf ts t0 step ≤ counterOf ts' t0 step

/-- R143: the time remaining is the step less the floor remainder of the elapsed time, in `[1, time_step]`, equal to
`time_step` exactly at the first second of a step and 1 at the last. -/
def Obligations.TimeRemainingInStep : Prop :=
  ∀ ts t0 step : Int, 0 < step →
    (∃ r, 0 ≤ r ∧ r < step ∧ step ∣ ts - t0 - r ∧ timeRemaining ts t0 step = step - r) ∧
    1 ≤ timeRemaining ts t0 step ∧ timeRemaining ts t0 step ≤ step ∧
    (timeRemaining ts t0 step = step ↔ step ∣ ts - t0) ∧
    (timeRemaining ts t0 step = 1 ↔ step ∣ ts + 1 - t0)

/-! ## The HOTP function -/

/-- R178, R183: a padded message is the message, `0x80`, fewer than a block of zero bytes and the bit length in 8 or 16
bytes, in whole blocks. R175: the digest of each hash has its size, 20, 32 or 64 bytes, and so has the HMAC (R158). -/
def Obligations.DigestSizes : Prop :=
  ∀ (m k : List Byte),
    (∃ (z : Nat) (b : List Byte), z < 64 ∧ b.length = 8 ∧ (8 * m.length < 2 ^ 64 → ube b = 8 * m.length) ∧
      pad64 m = m ++ [0x80] ++ List.replicate z 0 ++ b ∧ (pad64 m).length % 64 = 0) ∧
    (∃ (z : Nat) (b : List Byte), z < 128 ∧ b.length = 16 ∧ (8 * m.length < 2 ^ 128 → ube b = 8 * m.length) ∧
      pad128 m = m ++ [0x80] ++ List.replicate z 0 ++ b ∧ (pad128 m).length % 128 = 0) ∧
    (Alg.sha1.hash m).length = 20 ∧ (Alg.sha256.hash m).length = 32 ∧ (Alg.sha512.hash m).length = 64 ∧
    ∀ a : Alg, (hmac a k m).length = a.hlen

/-- R176: HMAC with the key brought to exactly one block: as it is when it is no longer than a block, else its hash, then
zero bytes. -/
def Obligations.HmacOfPaddedKey : Prop :=
  ∀ (a : Alg) (key msg : List Byte), ∃ k0 : List Byte, k0.length = a.blen ∧
    (key.length ≤ a.blen → ∀ i < a.blen, k0.getD i 0 = key.getD i 0) ∧
    (a.blen < key.length → ∀ i < a.blen, k0.getD i 0 = (a.hash key).getD i 0) ∧
    hmac a key msg = a.hash (k0.map (· ^^^ 0x5C) ++ a.hash (k0.map (· ^^^ 0x36) ++ msg))

/-- R159 to R162: the offset is the low four bits of the last digest byte, the four bytes from it on always exist, are
read most significant first, lose bit 31 and are reduced modulo `10^digits`. -/
def Obligations.TruncationOfDigest : Prop :=
  ∀ (h : List Byte) (o : Nat), 20 ≤ h.length → o = (h.getD (h.length - 1) 0).toNat % 16 →
    truncOffset h = o ∧ o + 3 < h.length ∧
    truncated h = (h.getD o 0).toNat * 2 ^ 24 + (h.getD (o + 1) 0).toNat * 2 ^ 16 +
      (h.getD (o + 2) 0).toNat * 2 ^ 8 + (h.getD (o + 3) 0).toNat ∧
    codeInt h = truncated h % 2 ^ 31 ∧ ∀ d, otpNumeric h d = truncated h % 2 ^ 31 % 10 ^ d

/-- R163: the code has exactly `digits` characters, character `i` the ASCII digit of weight `10^(digits-1-i)`. -/
def Obligations.CodeIsDecimalNumeral : Prop :=
  ∀ (x : HotpArgs) (c : Nat),
    (otpCode x c).length = x.digits ∧ otpNumber x c < 2 ^ 31 ∧ otpNumber x c < 10 ^ x.digits ∧
    ∀ i < x.digits,
      ((otpCode x c).getD i 0).toNat = 0x30 + otpNumber x c / 10 ^ (x.digits - 1 - i) % 10

/-- R156: outside `[0, 2^64)` the function `hotp` returns `InvalidParameter`, inside it never does. -/
def Obligations.CounterRangeChecked : Prop :=
  ∀ (x : HotpArgs) (c : Int),
    (hotp x c = none ↔ c < 0 ∨ 2 ^ 64 ≤ c) ∧
    ∀ n : Nat, c = n → n < 2 ^ 64 → hotp x c = some (otpNumber x n, otpCode x n)

/-! ## HOTP, GEN, VERIFY -/

/-- R165: `HOTP`. Without a configuration it raises `NoConfig`; with `CNEG = 1` it raises `InvalidParameter`; else it
writes the code of the counter in `CTR`. -/
def Obligations.HotpWritesCode : Prop :=
  ∀ s : State,
    (s.status.cfgValid = false → exec .hotp s = .next (s.errorReport 5)) ∧
    ∀ a, s.configInv → s.status.cfgValid = true → Alg.ofCode s.regs.alg = some a →
      (s.status.cneg = true → exec .hotp s = .next (s.errorReport 3)) ∧
      (s.status.cneg = false →
        ∃ t, exec .hotp s = .next t ∧
          t.regs = { s.regs with code := BitVec.ofNat 64 (otpNumber (s.configArgs a) s.regs.ctr.toNat) } ∧
          t.holds .codestr (otpCode (s.configArgs a) s.regs.ctr.toNat) ∧ s.sameOutside t .codestr ∧
          t.status = { s.status with busy := false, err := 0 } ∧ t.pend = s.pend ∧ t.env = s.env)

/-- R42, R164: the code `HOTP` writes depends on `CTR`, `DIGITS`, `ALG` and the key alone. -/
def Obligations.HotpDependsOnOperandsOnly : Prop :=
  ∀ s s' t t' : State, exec .hotp s = .next t → exec .hotp s' = .next t' → t.status.err = 0 → t'.status.err = 0 →
    s.regs.ctr = s'.regs.ctr → s.regs.digits = s'.regs.digits → s.regs.alg = s'.regs.alg →
    s.regs.keyLen = s'.regs.keyLen → (∀ i < s.regs.keyLen.toNat, s.bufByte .key i = s'.bufByte .key i) →
    t.regs.code = t'.regs.code ∧ ∀ i < Buf.codestr.cap, t.bufByte .codestr i = t'.bufByte .codestr i

/-- R201: `GEN`. Without a configuration it raises `NoConfig`, and that it then takes no sample of the clock is the model's
own choice (log 15); before `T0` it raises `InvalidParameter`; else it writes counter, time remaining, code and
timestamp together. -/
def Obligations.GenWritesResult : Prop :=
  ∀ (w : Bool) (s : State),
    (s.status.cfgValid = false → exec (.gen w) s = .next (s.errorReport 5)) ∧
    ∀ a, s.configInv → s.status.cfgValid = true → Alg.ofCode s.regs.alg = some a →
      (s64 (s.timestamp w).1 < s64 s.regs.t0 →
        exec (.gen w) s = .next ((s.timestamp w).2.errorReport 3)) ∧
      (s64 s.regs.t0 ≤ s64 (s.timestamp w).1 →
        ∃ t c r, exec (.gen w) s = .next t ∧
          s64 (s.timestamp w).1 - s64 s.regs.t0 = (c : Nat) * s64 s.regs.step + r ∧ 0 ≤ r ∧ r < s64 s.regs.step ∧
          c < 2 ^ 64 ∧
          t.regs = { s.regs with
            ts := (s.timestamp w).1
            ctr := BitVec.ofNat 64 c
            rem := u64 (s64 s.regs.step - r)
            code := BitVec.ofNat 64 (otpNumber (s.configArgs a) c) } ∧
          t.holds .codestr (otpCode (s.configArgs a) c) ∧ s.sameOutside t .codestr ∧
          t.status = { s.status with busy := false, err := 0, cneg := false } ∧
          t.pend = s.pend ∧ t.env = (s.timestamp w).2.env)

/-- R205, R239: the checks of `VERIFY` in their order; each raise also clears `MATCH`. That the first three take no sample
of the clock is the model's own choice (log 15). -/
def Obligations.VerifyChecksInOrder : Prop :=
  ∀ (w : Bool) (s : State),
    (s.status.cfgValid = false → exec (.verify w) s = .next (s.verifyErrorReport 5)) ∧
    (s.status.cfgValid = true →
      (16 < s.regs.candLen.toNat → exec (.verify w) s = .next (s.verifyErrorReport 7)) ∧
      (s.regs.candLen.toNat ≤ 16 →
        (s64 s.regs.window < 0 → exec (.verify w) s = .next (s.verifyErrorReport 3)) ∧
        (0 ≤ s64 s.regs.window → s.configInv →
          (counterOf (s64 (s.timestamp w).1) (s64 s.regs.t0) (s64 s.regs.step) - s64 s.regs.window < 0 ∨
            2 ^ 64 ≤ counterOf (s64 (s.timestamp w).1) (s64 s.regs.t0) (s64 s.regs.step) + s64 s.regs.window →
            exec (.verify w) s = .next ((s.timestamp w).2.verifyErrorReport 3)))))

/-- R202, R205: when the checks pass `VERIFY` sets `MATCH` exactly when some counter of the window has the candidate as
its code, writes `TS`, and nothing else. -/
def Obligations.VerifyMatchesWindow : Prop :=
  ∀ (w : Bool) (s : State) (a : Alg) (cur : Int), s.configInv → s.status.cfgValid = true →
    Alg.ofCode s.regs.alg = some a → s.regs.candLen.toNat ≤ 16 → 0 ≤ s64 s.regs.window →
    cur = counterOf (s64 (s.timestamp w).1) (s64 s.regs.t0) (s64 s.regs.step) →
    0 ≤ cur - s64 s.regs.window → cur + s64 s.regs.window < 2 ^ 64 →
    ∃ t, exec (.verify w) s = .next t ∧
      (t.status.matched = true ↔
        ∃ i : Int, -s64 s.regs.window ≤ i ∧ i ≤ s64 s.regs.window ∧
          otpCode (s.configArgs a) (cur + i).toNat = s.candOperand) ∧
      t.status = { s.status with busy := false, err := 0, matched := t.status.matched } ∧
      t.regs = { s.regs with ts := (s.timestamp w).1 } ∧ s.sameMemory t ∧ t.pend = s.pend ∧
      t.env = (s.timestamp w).2.env

/-- R204: the candidate equals a code exactly when `CAND_LEN` is the number of digits and every byte agrees; bytes of
`CAND` at or above `CAND_LEN` do not matter. -/
def Obligations.CandidateComparison : Prop :=
  ∀ (s : State) (a : Alg) (c : Nat), s.configInv → s.status.cfgValid = true →
    (otpCode (s.configArgs a) c = s.candOperand ↔
      (s.regs.candLen.toNat : Int) = s64 s.regs.digits ∧
        ∀ j : Nat, (j : Int) < s64 s.regs.digits → s.bufByte .cand j = (otpCode (s.configArgs a) c).getD j 0)

/-- R207: after a `GEN` at `T` that succeeds, with `CODESTR[0..DIGITS)` copied to `CAND`, `CAND_LEN = DIGITS`,
`WINDOW = 0` and the same timestamp and configuration, `VERIFY` answers `MATCH = 1`, `ERR = 0`. -/
def Obligations.GenerateThenVerifyMatches : Prop :=
  ∀ s g s' : State, exec (.gen false) s = .next g → g.status.err = 0 → s.status.cfgValid = true →
    s'.status.cfgValid = true → s'.regs.ts = g.regs.ts → s'.regs.t0 = g.regs.t0 → s'.regs.step = g.regs.step →
    s'.regs.digits = g.regs.digits → s'.regs.alg = g.regs.alg → s'.regs.keyLen = g.regs.keyLen →
    (∀ i < Buf.key.cap, s'.bufByte .key i = g.bufByte .key i) →
    s'.regs.window = 0 → s'.regs.candLen = g.regs.digits →
    (∀ j : Nat, (j : Int) < s64 g.regs.digits → s'.bufByte .cand j = g.bufByte .codestr j) →
    ∃ t, exec (.verify false) s' = .next t ∧ t.status.err = 0 ∧ t.status.matched = true

/-- R208: if `GEN` succeeds at `T` and `VERIFY` runs at `T + window * time_step` with that window and the generated code
as candidate, and raises no error, then `MATCH = 1`, with either `W` bit on either command. -/
def Obligations.WindowBoundaryMatches : Prop :=
  ∀ (w w' : Bool) (s g s' t : State), exec (.gen w) s = .next g → g.status.err = 0 → s.status.cfgValid = true →
    s'.status.cfgValid = true → s'.regs.t0 = g.regs.t0 → s'.regs.step = g.regs.step →
    s'.regs.digits = g.regs.digits → s'.regs.alg = g.regs.alg → s'.regs.keyLen = g.regs.keyLen →
    (∀ i < Buf.key.cap, s'.bufByte .key i = g.bufByte .key i) →
    s64 (s'.timestamp w').1 = s64 (s.timestamp w).1 + s64 s'.regs.window * s64 g.regs.step →
    s'.regs.candLen = g.regs.digits →
    (∀ j : Nat, (j : Int) < s64 g.regs.digits → s'.bufByte .cand j = g.bufByte .codestr j) →
    exec (.verify w') s' = .next t → t.status.err = 0 → t.status.matched = true

/-- The model's stops (log 8): in a state with `CFG_VALID = 1` that is no constructed configuration, `GEN` and `VERIFY`
fault where `fdiv` is not defined (R141), and `GEN` and `HOTP` where `hotp` is not defined (R155). -/
def Obligations.UndefinedConfigFaults : Prop :=
  ∀ (s : State) (w : Bool), s.status.cfgValid = true →
    (s64 s.regs.step ≤ 0 → exec (.gen w) s = .fault .stepNotPositive) ∧
    (s64 s.regs.step ≤ 0 → s.regs.candLen.toNat ≤ 16 → 0 ≤ s64 s.regs.window →
      exec (.verify w) s = .fault .stepNotPositive) ∧
    (Alg.ofCode s.regs.alg = none ∨ s64 s.regs.digits < 6 ∨ 10 < s64 s.regs.digits ∨ 160 < s.regs.keyLen.toNat →
      exec .hotp s = .fault .hotpOutsideDomain ∧
      (0 < s64 s.regs.step → exec (.gen w) s = .fault .hotpOutsideDomain) ∧
      (0 < s64 s.regs.step → s.regs.candLen.toNat ≤ 16 → 0 ≤ s64 s.regs.window →
        exec (.verify w) s = .fault .hotpOutsideDomain))

/-! ## RAND, GENSEC -/

/-- R221: `RAND`: a length outside `[1, 160]` raises `InvalidLength` and takes no draw; else the bytes drawn and their
Base32 text are stored, whatever they are, or the fatal state is entered. -/
def Obligations.RandStoresSecret : Prop :=
  ∀ s : State,
    (s64 s.regs.len < 1 ∨ 160 < s64 s.regs.len → exec .rand s = .next (s.errorReport 4)) ∧
    (1 ≤ s64 s.regs.len → s64 s.regs.len ≤ 160 →
      ∀ b s₁, s.drawEntropy (s64 s.regs.len).toNat = (some b, s₁) →
        ∃ t, exec .rand s = .next t ∧ (b.length : Int) = s64 s.regs.len ∧ s.storesSecret b t ∧ t.env = s₁.env) ∧
    (1 ≤ s64 s.regs.len → s64 s.regs.len ≤ 160 →
      ∀ s₁, s.drawEntropy (s64 s.regs.len).toNat = (none, s₁) → exec .rand s = .next s₁.fatalReport)

/-- R222: `GENSEC`: the length policy `[16, 64]`, then exactly as `RAND` from the draw on. -/
def Obligations.GensecPolicy : Prop :=
  ∀ s : State,
    (s64 s.regs.len < 16 ∨ 64 < s64 s.regs.len → exec .gensec s = .next (s.errorReport 4)) ∧
    (16 ≤ s64 s.regs.len → s64 s.regs.len ≤ 64 →
      exec .gensec s = exec .rand s ∧
      ∀ b s₁, s.drawEntropy (s64 s.regs.len).toNat = (some b, s₁) →
        ∃ t, exec .gensec s = .next t ∧ (b.length : Int) = s64 s.regs.len ∧ s.storesSecret b t ∧ t.env = s₁.env)

/-- R243: when the draw of `RAND` or `GENSEC` answers `unavailable`: `FATAL`, `ERR = 8`, `BUSY` cleared, nothing else. -/
def Obligations.EntropyFailureIsFatal : Prop :=
  ∀ s : State, (s.drawEntropy (s64 s.regs.len).toNat).1 = none →
    (1 ≤ s64 s.regs.len → s64 s.regs.len ≤ 160 →
      exec .rand s = .next (s.drawEntropy (s64 s.regs.len).toNat).2.fatalReport) ∧
    (16 ≤ s64 s.regs.len → s64 s.regs.len ≤ 64 →
      exec .gensec s = .next (s.drawEntropy (s64 s.regs.len).toNat).2.fatalReport)

/-! ## Whole-machine rules -/

/-- R235: from a constructed configuration or none, every pending word completes, with exactly one outcome: success, one
error kind 1 to 7, or the fatal outcome; `BUSY` is cleared. -/
def Obligations.EveryCommandCompletes : Prop :=
  ∀ s : State, s.configInv →
    ∃ t, complete s = .next t ∧ t.status.busy = false ∧ t.pend = s.pend ∧
      ((t.status.err = 0 ∧ t.status.fatal = s.status.fatal) ∨
        (1 ≤ t.status.err.toNat ∧ t.status.err.toNat ≤ 7 ∧ t.status.fatal = s.status.fatal) ∨
        (t.status.err = 8 ∧ t.status.fatal = true))

/-- R241: a command that raises writes `ERR`, clears `BUSY`, for `VERIFY` also `MATCH`, and nothing else. -/
def Obligations.ErrorsWriteNothingElse : Prop :=
  ∀ (i : Instr) (s t : State), exec i s = .next t → t.status.err ≠ 0 → t.status.err ≠ 8 →
    t.regs = s.regs ∧ t.mem = s.mem ∧ t.pend = s.pend ∧
      ((∀ w, i ≠ .verify w) → t.status = { s.status with busy := false, err := t.status.err }) ∧
      (∀ w, i = .verify w → t.status = { s.status with busy := false, err := t.status.err, matched := false })

/-- R244: while `FATAL = 1` no command starts and `ERR` stays, and only the reset input clears `FATAL`. -/
def Obligations.FatalLeftOnlyByReset : Prop :=
  ∀ s t : State, s.status.fatal = true → step s = .next t → ¬s.resetNext →
    t.status.fatal = true ∧ (s.status.busy = false → t.status.busy = false ∧ t.status.err = s.status.err)

/-- R40: `FATAL` is set only by the completion of a `RAND` or `GENSEC`, with `ERR = 8`. -/
def Obligations.FatalSetOnlyByEntropy : Prop :=
  ∀ s t : State, s.status.fatal = false → step s = .next t → t.status.fatal = true →
    s.engineNext ∧ (decode s.pend = some .rand ∨ decode s.pend = some .gensec) ∧ t.status.err = 8

/-- R35, R275: `MATCH` changes only at the completion of a `VERIFY` or by reset, and is never set with an error. -/
def Obligations.MatchWrittenOnlyByVerify : Prop :=
  ∀ s t : State, step s = .next t → t.status.matched ≠ s.status.matched →
    s.resetNext ∨
      (s.engineNext ∧ (∃ w, decode s.pend = some (.verify w)) ∧ (t.status.matched = true → t.status.err = 0))

/-- R111: `MKCFG` is the only way `CFG_VALID` becomes 1. -/
def Obligations.ConfigValidOnlyByMkcfg : Prop :=
  ∀ s t : State, step s = .next t → s.status.cfgValid = false → t.status.cfgValid = true →
    s.engineNext ∧ decode s.pend = some .mkcfg ∧ t.status.err = 0

/-- R30: a step that leaves `CFG_VALID = 1` changed no config-bearing state, but for the key that a successful `MKCFG`
stores. -/
def Obligations.ConfigBearingWritesClear : Prop :=
  ∀ s t : State, step s = .next t → t.status.cfgValid = true →
    s.sameConfigBearing t ∧
      (s.sameKey t ∨ (s.engineNext ∧ decode s.pend = some .mkcfg ∧ t.status.err = 0))

/-! ## Invariants -/

/-- Every step keeps memory in canonical form (the form is the model's own, log 7). -/
def Obligations.StepKeepsMemoryCanonical : Prop :=
  ∀ s t : State, s.mem.wf → step s = .next t → t.mem.wf

/-- R29: the invariant behind `CFG_VALID` is preserved by every step. -/
def Obligations.StepKeepsConfiguration : Prop :=
  ∀ s t : State, s.configInv → step s = .next t → t.configInv

/-- R166: every step keeps `CODESTR` the zero-padded numeral of `CODE`. -/
def Obligations.StepKeepsCodeNumeral : Prop :=
  ∀ s t : State, s.codeInv → step s = .next t → t.codeInv

/-- R27, R28, R146, R236: every step keeps the fields in their ranges. -/
def Obligations.StepKeepsRanges : Prop :=
  ∀ s t : State, s.rangeInv → step s = .next t → t.rangeInv

/-- The whole invariant holds after reset. -/
def Obligations.ResetMeetsEveryInvariant : Prop := State.reset.inv

/-- R29, R67: from a state with the invariant, a step faults never, is refused only for an access that does not exist on
the port, and otherwise answers a next state with the invariant (the schedule and the memory's form are the model's
own, log 1 and 7). -/
def Obligations.MachineNeverFaults : Prop :=
  ∀ s : State, s.inv →
    (∃ t, step s = .next t ∧ t.inv) ∨
      (step s = .refused .noSuchAccess ∧
        ∃ a n ts, ¬(a % 8 = 0 ∧ n = 8 ∧ a < 4096) ∧
          (s.env.schedule = .host (.read a n) :: ts ∨ ∃ v, s.env.schedule = .host (.write a n v) :: ts))
end

