-- ==== Sys2Proof/Laws/State.lean ====
section
/-! SUPPORT. One lemma per field per update of the state, each true by unfolding the update once. -/

namespace Sys2Proof.Machine

variable (s : State)

@[simp] theorem State.clearCfgValid_status : (s.clearCfgValid).status = { s.status with cfgValid := false } := rfl
@[simp] theorem State.clearCfgValid_regs : (s.clearCfgValid).regs = s.regs := rfl
@[simp] theorem State.clearCfgValid_mem : (s.clearCfgValid).mem = s.mem := rfl
@[simp] theorem State.clearCfgValid_pend : (s.clearCfgValid).pend = s.pend := rfl
@[simp] theorem State.clearCfgValid_env : (s.clearCfgValid).env = s.env := rfl

@[simp] theorem State.setCfgValid_status : (s.setCfgValid).status = { s.status with cfgValid := true } := rfl
@[simp] theorem State.setCfgValid_regs : (s.setCfgValid).regs = s.regs := rfl
@[simp] theorem State.setCfgValid_mem : (s.setCfgValid).mem = s.mem := rfl
@[simp] theorem State.setCfgValid_pend : (s.setCfgValid).pend = s.pend := rfl
@[simp] theorem State.setCfgValid_env : (s.setCfgValid).env = s.env := rfl

@[simp] theorem State.setMatch_status (m : Bool) : (s.setMatch m).status = { s.status with matched := m } := rfl
@[simp] theorem State.setMatch_regs (m : Bool) : (s.setMatch m).regs = s.regs := rfl
@[simp] theorem State.setMatch_mem (m : Bool) : (s.setMatch m).mem = s.mem := rfl
@[simp] theorem State.setMatch_pend (m : Bool) : (s.setMatch m).pend = s.pend := rfl
@[simp] theorem State.setMatch_env (m : Bool) : (s.setMatch m).env = s.env := rfl

@[simp] theorem State.setCneg_status (neg : Bool) : (s.setCneg neg).status = { s.status with cneg := neg } := rfl
@[simp] theorem State.setCneg_regs (neg : Bool) : (s.setCneg neg).regs = s.regs := rfl
@[simp] theorem State.setCneg_mem (neg : Bool) : (s.setCneg neg).mem = s.mem := rfl
@[simp] theorem State.setCneg_pend (neg : Bool) : (s.setCneg neg).pend = s.pend := rfl
@[simp] theorem State.setCneg_env (neg : Bool) : (s.setCneg neg).env = s.env := rfl

@[simp] theorem State.startCommand_status (v : Word) : (s.startCommand v).status = { s.status with busy := true } := rfl
@[simp] theorem State.startCommand_regs (v : Word) : (s.startCommand v).regs = s.regs := rfl
@[simp] theorem State.startCommand_mem (v : Word) : (s.startCommand v).mem = s.mem := rfl
@[simp] theorem State.startCommand_pend (v : Word) : (s.startCommand v).pend = v := rfl
@[simp] theorem State.startCommand_env (v : Word) : (s.startCommand v).env = s.env := rfl

@[simp] theorem State.setBuf_status (b : Buf) (t : List Byte) : (s.setBuf b t).status = s.status := rfl
@[simp] theorem State.setBuf_regs (b : Buf) (t : List Byte) : (s.setBuf b t).regs = s.regs := rfl
@[simp] theorem State.setBuf_mem (b : Buf) (t : List Byte) : (s.setBuf b t).mem = s.mem.write b.base (padTo b.cap t) := rfl
@[simp] theorem State.setBuf_pend (b : Buf) (t : List Byte) : (s.setBuf b t).pend = s.pend := rfl
@[simp] theorem State.setBuf_env (b : Buf) (t : List Byte) : (s.setBuf b t).env = s.env := rfl

@[simp] theorem State.setReg_status (r : Reg) (v : Word) : (s.setReg r v).status = s.status := rfl
@[simp] theorem State.setReg_regs (r : Reg) (v : Word) : (s.setReg r v).regs = s.regs.set r v := rfl
@[simp] theorem State.setReg_mem (r : Reg) (v : Word) : (s.setReg r v).mem = s.mem := rfl
@[simp] theorem State.setReg_pend (r : Reg) (v : Word) : (s.setReg r v).pend = s.pend := rfl
@[simp] theorem State.setReg_env (r : Reg) (v : Word) : (s.setReg r v).env = s.env := rfl

@[simp] theorem State.storeKey_status (t : List Byte) : (s.storeKey t).status = { s.status with cfgValid := false } := rfl
@[simp] theorem State.storeKey_regs (t : List Byte) : (s.storeKey t).regs = { s.regs with keyLen := BitVec.ofNat 64 t.length } := rfl
@[simp] theorem State.storeKey_mem (t : List Byte) : (s.storeKey t).mem = s.mem.write Buf.key.base (padTo Buf.key.cap t) := rfl
@[simp] theorem State.storeKey_pend (t : List Byte) : (s.storeKey t).pend = s.pend := rfl
@[simp] theorem State.storeKey_env (t : List Byte) : (s.storeKey t).env = s.env := rfl

@[simp] theorem State.storeText_status (t : List Byte) : (s.storeText t).status = { s.status with cfgValid := false } := rfl
@[simp] theorem State.storeText_regs (t : List Byte) : (s.storeText t).regs = { s.regs with textLen := BitVec.ofNat 64 t.length } := rfl
@[simp] theorem State.storeText_mem (t : List Byte) : (s.storeText t).mem = s.mem.write Buf.text.base (padTo Buf.text.cap t) := rfl
@[simp] theorem State.storeText_pend (t : List Byte) : (s.storeText t).pend = s.pend := rfl
@[simp] theorem State.storeText_env (t : List Byte) : (s.storeText t).env = s.env := rfl

@[simp] theorem State.succeed_status : (s.succeed).status = { s.status with busy := false, err := 0 } := rfl
@[simp] theorem State.succeed_regs : (s.succeed).regs = s.regs := rfl
@[simp] theorem State.succeed_mem : (s.succeed).mem = s.mem := rfl
@[simp] theorem State.succeed_pend : (s.succeed).pend = s.pend := rfl
@[simp] theorem State.succeed_env : (s.succeed).env = s.env := rfl

@[simp] theorem State.raise_status (k : ErrorKind) : (s.raise k).status = { s.status with busy := false, err := k.errCode } := rfl
@[simp] theorem State.raise_regs (k : ErrorKind) : (s.raise k).regs = s.regs := rfl
@[simp] theorem State.raise_mem (k : ErrorKind) : (s.raise k).mem = s.mem := rfl
@[simp] theorem State.raise_pend (k : ErrorKind) : (s.raise k).pend = s.pend := rfl
@[simp] theorem State.raise_env (k : ErrorKind) : (s.raise k).env = s.env := rfl

@[simp] theorem State.raiseVerify_status (k : ErrorKind) : (s.raiseVerify k).status = { s.status with busy := false, err := k.errCode, matched := false } := rfl
@[simp] theorem State.raiseVerify_regs (k : ErrorKind) : (s.raiseVerify k).regs = s.regs := rfl
@[simp] theorem State.raiseVerify_mem (k : ErrorKind) : (s.raiseVerify k).mem = s.mem := rfl
@[simp] theorem State.raiseVerify_pend (k : ErrorKind) : (s.raiseVerify k).pend = s.pend := rfl
@[simp] theorem State.raiseVerify_env (k : ErrorKind) : (s.raiseVerify k).env = s.env := rfl

@[simp] theorem State.enterFatal_status : (s.enterFatal).status = { s.status with busy := false, err := 8, fatal := true } := rfl
@[simp] theorem State.enterFatal_regs : (s.enterFatal).regs = s.regs := rfl
@[simp] theorem State.enterFatal_mem : (s.enterFatal).mem = s.mem := rfl
@[simp] theorem State.enterFatal_pend : (s.enterFatal).pend = s.pend := rfl
@[simp] theorem State.enterFatal_env : (s.enterFatal).env = s.env := rfl

@[simp] theorem State.resetInput_status : (s.resetInput).status = Status.reset := rfl
@[simp] theorem State.resetInput_regs : (s.resetInput).regs = Regs.reset := rfl
@[simp] theorem State.resetInput_mem : (s.resetInput).mem = [] := rfl
@[simp] theorem State.resetInput_pend : (s.resetInput).pend = 0 := rfl
@[simp] theorem State.resetInput_env : (s.resetInput).env = s.env := rfl

@[simp] theorem State.withSchedule_status (ts : List Turn) : (s.withSchedule ts).status = s.status := rfl
@[simp] theorem State.withSchedule_regs (ts : List Turn) : (s.withSchedule ts).regs = s.regs := rfl
@[simp] theorem State.withSchedule_mem (ts : List Turn) : (s.withSchedule ts).mem = s.mem := rfl
@[simp] theorem State.withSchedule_pend (ts : List Turn) : (s.withSchedule ts).pend = s.pend := rfl
@[simp] theorem State.withSchedule_env (ts : List Turn) : (s.withSchedule ts).env = { s.env with schedule := ts } := rfl

@[simp] theorem State.reply_status (v : Word) : (s.reply v).status = s.status := rfl
@[simp] theorem State.reply_regs (v : Word) : (s.reply v).regs = s.regs := rfl
@[simp] theorem State.reply_mem (v : Word) : (s.reply v).mem = s.mem := rfl
@[simp] theorem State.reply_pend (v : Word) : (s.reply v).pend = s.pend := rfl
@[simp] theorem State.reply_env (v : Word) : (s.reply v).env = { s.env with replies := v :: s.env.replies } := rfl

@[simp] theorem State.replyFree_status : (s.replyFree).status = s.status := rfl
@[simp] theorem State.replyFree_regs : (s.replyFree).regs = s.regs := rfl
@[simp] theorem State.replyFree_mem : (s.replyFree).mem = s.mem := rfl
@[simp] theorem State.replyFree_pend : (s.replyFree).pend = s.pend := rfl
@[simp] theorem State.replyFree_env : (s.replyFree).env = { s.env with replies := Config.busyRead s.env.draws :: s.env.replies, draws := s.env.draws + 1 } := rfl

@[simp] theorem State.setCounter_status (c : Int) : (s.setCounter c).status = { s.status with cneg := decide (c < 0) } := rfl
@[simp] theorem State.setCounter_regs (c : Int) : (s.setCounter c).regs = { s.regs with ctr := u64 c } := rfl
@[simp] theorem State.setCounter_mem (c : Int) : (s.setCounter c).mem = s.mem := rfl
@[simp] theorem State.setCounter_pend (c : Int) : (s.setCounter c).pend = s.pend := rfl
@[simp] theorem State.setCounter_env (c : Int) : (s.setCounter c).env = s.env := rfl

@[simp] theorem State.setCode_status (n : Nat) (t : List Byte) : (s.setCode n t).status = s.status := rfl
@[simp] theorem State.setCode_regs (n : Nat) (t : List Byte) : (s.setCode n t).regs = { s.regs with code := BitVec.ofNat 64 n } := rfl
@[simp] theorem State.setCode_mem (n : Nat) (t : List Byte) : (s.setCode n t).mem = s.mem.write Buf.codestr.base (padTo Buf.codestr.cap t) := rfl
@[simp] theorem State.setCode_pend (n : Nat) (t : List Byte) : (s.setCode n t).pend = s.pend := rfl
@[simp] theorem State.setCode_env (n : Nat) (t : List Byte) : (s.setCode n t).env = s.env := rfl

@[simp] theorem Regs.get_ts (r : Regs) : r.get .ts = r.ts := rfl
@[simp] theorem Regs.get_t0 (r : Regs) : r.get .t0 = r.t0 := rfl
@[simp] theorem Regs.get_step (r : Regs) : r.get .step = r.step := rfl
@[simp] theorem Regs.get_digits (r : Regs) : r.get .digits = r.digits := rfl
@[simp] theorem Regs.get_alg (r : Regs) : r.get .alg = r.alg := rfl
@[simp] theorem Regs.get_window (r : Regs) : r.get .window = r.window := rfl
@[simp] theorem Regs.get_len (r : Regs) : r.get .len = r.len := rfl
@[simp] theorem Regs.get_ctr (r : Regs) : r.get .ctr = r.ctr := rfl
@[simp] theorem Regs.get_rem (r : Regs) : r.get .rem = r.rem := rfl
@[simp] theorem Regs.get_code (r : Regs) : r.get .code = r.code := rfl
@[simp] theorem Regs.get_textLen (r : Regs) : r.get .textLen = r.textLen := rfl
@[simp] theorem Regs.get_keyLen (r : Regs) : r.get .keyLen = r.keyLen := rfl
@[simp] theorem Regs.get_candLen (r : Regs) : r.get .candLen = r.candLen := rfl

@[simp] theorem Regs.set_ts (r : Regs) (v : Word) : r.set .ts v = { r with ts := v } := rfl
@[simp] theorem Regs.set_t0 (r : Regs) (v : Word) : r.set .t0 v = { r with t0 := v } := rfl
@[simp] theorem Regs.set_step (r : Regs) (v : Word) : r.set .step v = { r with step := v } := rfl
@[simp] theorem Regs.set_digits (r : Regs) (v : Word) : r.set .digits v = { r with digits := v } := rfl
@[simp] theorem Regs.set_alg (r : Regs) (v : Word) : r.set .alg v = { r with alg := v } := rfl
@[simp] theorem Regs.set_window (r : Regs) (v : Word) : r.set .window v = { r with window := v } := rfl
@[simp] theorem Regs.set_len (r : Regs) (v : Word) : r.set .len v = { r with len := v } := rfl
@[simp] theorem Regs.set_ctr (r : Regs) (v : Word) : r.set .ctr v = { r with ctr := v } := rfl
@[simp] theorem Regs.set_rem (r : Regs) (v : Word) : r.set .rem v = { r with rem := v } := rfl
@[simp] theorem Regs.set_code (r : Regs) (v : Word) : r.set .code v = { r with code := v } := rfl
@[simp] theorem Regs.set_textLen (r : Regs) (v : Word) : r.set .textLen v = { r with textLen := v } := rfl
@[simp] theorem Regs.set_keyLen (r : Regs) (v : Word) : r.set .keyLen v = { r with keyLen := v } := rfl
@[simp] theorem Regs.set_candLen (r : Regs) (v : Word) : r.set .candLen v = { r with candLen := v } := rfl

/-- A register reads the pattern written last (R22). -/
theorem Regs.get_set_same (r : Regs) (n : Reg) (v : Word) : (r.set n v).get n = v := by cases n <;> rfl

/-- Registers do not alias one another (R22). -/
theorem Regs.get_set_other (r : Regs) (n k : Reg) (v : Word) (h : k ≠ n) : (r.set n v).get k = r.get k := by
  cases n <;> cases k <;> first | rfl | exact absurd rfl h

end Sys2Proof.Machine
end

