-- ==== Sys2Proof/Laws/Memory.lean ====
section
/-! SUPPORT. The laws of memory: what a byte reads as after a write, and that every memory operation keeps the canonical form. -/

namespace Sys2Proof.Machine

theorem Memory.read_append_right {m n : Memory} {a : Nat} (h : ∀ c ∈ m, c.1 ≠ a) :
    Memory.read (m ++ n) a = Memory.read n a := by
  induction m with
  | nil => rfl
  | cons c m ih =>
    have hc : a ≠ c.1 := fun e => h c (by simp) e.symm
    simp only [List.cons_append, Memory.read, if_neg hc]
    exact ih fun d hd => h d (by simp [hd])

theorem Memory.read_append_left {m n : Memory} {a : Nat} (h : ∀ c ∈ n, c.1 ≠ a) :
    Memory.read (m ++ n) a = Memory.read m a := by
  induction m with
  | nil =>
    induction n with
    | nil => rfl
    | cons c n ih =>
      have hc : a ≠ c.1 := fun e => h c (by simp) e.symm
      simp only [List.nil_append, Memory.read, if_neg hc] at ih ⊢
      exact ih fun d hd => h d (by simp [hd])
  | cons c m ih => simp only [List.cons_append, Memory.read, ih]

theorem Memory.read_filter {m : Memory} {a : Nat} {p : Host.Cell → Bool} (h : ∀ v, p (a, v) = true) :
    Memory.read (m.filter p) a = Memory.read m a := by
  induction m with
  | nil => rfl
  | cons c m ih =>
    obtain ⟨b, v⟩ := c
    by_cases hp : p (b, v) = true
    · simp only [List.filter_cons, hp, if_true, Memory.read, ih]
    · have hab : a ≠ b := by rintro rfl; exact hp (h v)
      simp only [List.filter_cons, hp, Memory.read, if_neg hab, ih, Bool.false_eq_true, if_false]

theorem Memory.cells_addr {base : Nat} {t : List Byte} {c : Host.Cell} (h : c ∈ Memory.cells base t) :
    base ≤ c.1 ∧ c.1 < base + t.length := by
  induction t generalizing base with
  | nil => simp [Memory.cells] at h
  | cons v t ih =>
    simp only [Memory.cells] at h
    split at h
    · have := ih h; simp only [List.length_cons]; omega
    · rcases List.mem_cons.mp h with rfl | h
      · simp
      · have := ih h; simp only [List.length_cons]; omega

theorem Memory.cells_value {base : Nat} {t : List Byte} {c : Host.Cell} (h : c ∈ Memory.cells base t) :
    c.2 ≠ Memory.unlisted := by
  induction t generalizing base with
  | nil => simp [Memory.cells] at h
  | cons v t ih =>
    simp only [Memory.cells] at h
    split at h
    · exact ih h
    · rcases List.mem_cons.mp h with rfl | h
      · assumption
      · exact ih h

theorem Memory.cells_sorted (base : Nat) (t : List Byte) :
    (Memory.cells base t).Pairwise fun c d => c.1 < d.1 := by
  induction t generalizing base with
  | nil => exact List.Pairwise.nil
  | cons v t ih =>
    simp only [Memory.cells]
    split
    · exact ih _
    · refine List.Pairwise.cons (fun c hc => ?_) (ih _)
      have := Memory.cells_addr hc; simp only; omega

theorem Memory.read_cells {base i : Nat} {t : List Byte} (h : i < t.length) :
    Memory.read (Memory.cells base t) (base + i) = t.getD i 0 := by
  induction t generalizing base i with
  | nil => simp at h
  | cons v t ih =>
    have hnot : ∀ c ∈ Memory.cells (base + 1) t, c.1 ≠ base := fun c hc => by
      have := Memory.cells_addr hc; omega
    cases i with
    | zero =>
      simp only [Memory.cells]
      split
      · have := Memory.read_append_left (m := []) (n := Memory.cells (base + 1) t) hnot
        simp_all [Memory.read, Memory.unlisted]
      · simp [Memory.read]
    | succ i =>
      have := ih (base := base + 1) (i := i) (by simpa using h)
      have e : base + (i + 1) = base + 1 + i := by omega
      simp only [Memory.cells]
      split
      · rw [e, this]; simp
      · rw [Memory.read, if_neg (by omega), e, this]; simp

/-- A byte inside the stored range reads as the byte stored there. -/
theorem Memory.read_write_inside (m : Memory) {base i : Nat} {t : List Byte} (h : i < t.length) :
    (m.write base t).read (base + i) = t.getD i 0 := by
  rw [Memory.write, Memory.read_append_left, Memory.read_append_right, Memory.read_cells h]
  · intro c hc; have := (List.mem_filter.mp hc).2; simp only [decide_eq_true_eq] at this; omega
  · intro c hc; have := (List.mem_filter.mp hc).2; simp only [decide_eq_true_eq] at this; omega

/-- A byte outside the stored range reads as before. -/
theorem Memory.read_write_outside (m : Memory) {base a : Nat} {t : List Byte}
    (h : a < base ∨ base + t.length ≤ a) : (m.write base t).read a = m.read a := by
  have hc : ∀ c ∈ Memory.cells base t, c.1 ≠ a := fun c hc => by have := Memory.cells_addr hc; omega
  rcases h with h | h
  · rw [Memory.write, Memory.read_append_left, Memory.read_append_left hc, Memory.read_filter (by simpa using h)]
    intro c hc; have := (List.mem_filter.mp hc).2; simp only [decide_eq_true_eq] at this; omega
  · rw [Memory.write, List.append_assoc, Memory.read_append_right, Memory.read_append_right hc,
      Memory.read_filter (by simpa using h)]
    intro c hc; have := (List.mem_filter.mp hc).2; simp only [decide_eq_true_eq] at this; omega

/-- A store to mapped bytes keeps the canonical form. -/
theorem Memory.write_wf {m : Memory} {base : Nat} {t : List Byte} (h : m.wf)
    (hb : ∀ i < t.length, Memory.mapped (base + i) = true) : (m.write base t).wf := by
  refine ⟨?_, fun c hc => ?_⟩
  · refine List.pairwise_append.mpr ⟨List.pairwise_append.mpr ⟨h.1.filter _, Memory.cells_sorted _ _, ?_⟩,
      h.1.filter _, ?_⟩
    · intro c hc d hd
      have h₁ := (List.mem_filter.mp hc).2; have h₂ := Memory.cells_addr hd
      simp only [decide_eq_true_eq] at h₁; omega
    · intro c hc d hd
      have h₂ := (List.mem_filter.mp hd).2; simp only [decide_eq_true_eq] at h₂
      rcases List.mem_append.mp hc with hc | hc
      · have h₁ := (List.mem_filter.mp hc).2; simp only [decide_eq_true_eq] at h₁; omega
      · have h₁ := Memory.cells_addr hc; omega
  · rcases List.mem_append.mp hc with hc | hc
    · rcases List.mem_append.mp hc with hc | hc
      · exact h.2 c (List.mem_filter.mp hc).1
      · have h₁ := Memory.cells_addr hc
        have h₂ := hb (c.1 - base) (by omega)
        rw [show base + (c.1 - base) = c.1 by omega] at h₂
        exact ⟨Memory.cells_value hc, h₂⟩
    · exact h.2 c (List.mem_filter.mp hc).1

@[simp] theorem padTo_length (cap : Nat) (t : List Byte) : (padTo cap t).length = cap := by
  simp [padTo]; omega

theorem padTo_getD {cap i : Nat} {t : List Byte} (hi : i < cap) : (padTo cap t).getD i 0 = t.getD i 0 := by
  simp only [padTo, List.getD_eq_getElem?_getD, List.getElem?_take, if_pos hi, List.getElem?_append]
  split
  · rfl
  · rename_i h
    rw [List.getElem?_eq_none (by omega : t.length ≤ i)]
    simp only [List.getElem?_replicate]
    split <;> rfl

/-- R33: after `BUF <- t` the buffer holds `t` and zero bytes after it. -/
theorem State.bufByte_setBuf_same (s : State) {b : Buf} {t : List Byte} {i : Nat} (hi : i < b.cap) :
    (s.setBuf b t).bufByte b i = t.getD i 0 := by
  rw [State.bufByte, State.setBuf_mem, Memory.read_write_inside _ (by simpa using hi), padTo_getD hi]

/-- `BUF <- t` leaves every byte outside the buffer as it was. -/
theorem State.read_setBuf_outside (s : State) {b : Buf} {t : List Byte} {a : Nat}
    (h : a < b.base ∨ b.base + b.cap ≤ a) : (s.setBuf b t).mem.read a = s.mem.read a := by
  rw [State.setBuf_mem, Memory.read_write_outside _ (by simpa using h)]

/-- Every byte of a buffer is a mapped address. -/
theorem Buf.mapped (b : Buf) {i : Nat} (hi : i < b.cap) : Memory.mapped (b.base + i) = true := by
  simp only [Memory.mapped, Bool.or_eq_true, Bool.and_eq_true, decide_eq_true_eq]
  cases b <;>
    simp only [Buf.cap, Buf.base, Config.candCap, Config.codestrCap, Config.textCap, Config.keyCap] at hi ⊢ <;> omega

/-- Storing a whole buffer keeps the canonical form. -/
theorem Memory.write_padTo_wf {m : Memory} (h : m.wf) (b : Buf) (t : List Byte) :
    (m.write b.base (padTo b.cap t)).wf :=
  Memory.write_wf h fun i hi => b.mapped (by simpa using hi)

@[simp] theorem leBytes_length (v : Word) : (leBytes v).length = 8 := by simp [leBytes]

/-- A host write of a word of a buffer keeps the canonical form. -/
theorem Memory.write_leBytes_wf {m : Memory} (h : m.wf) (b : Buf) {k : Nat} (hk : 8 * k + 8 ≤ b.cap) (v : Word) :
    (m.write (b.base + 8 * k) (leBytes v)).wf :=
  Memory.write_wf h fun i hi => by
    rw [leBytes_length] at hi
    rw [show b.base + 8 * k + i = b.base + (8 * k + i) by omega]
    exact b.mapped (by omega)

@[simp] theorem Memory.bytes_length (m : Memory) (base n : Nat) : (m.bytes base n).length = n := by
  simp [Memory.bytes]

theorem Memory.bytes_getD (m : Memory) {base n i : Nat} (h : i < n) : (m.bytes base n).getD i 0 = m.read (base + i) := by
  simp [Memory.bytes, h]

/-- Two memories that agree on a range have the same bytes there. -/
theorem Memory.bytes_congr {m m' : Memory} {base n : Nat} (h : ∀ i < n, m.read (base + i) = m'.read (base + i)) :
    m.bytes base n = m'.bytes base n := by
  simp only [Memory.bytes]
  exact List.map_congr_left fun i hi => h i (by simpa using hi)

/-- R43: the reset memory lists nothing, so it has the canonical form. -/
theorem State.reset_mem_wf : State.reset.mem.wf := by decide

end Sys2Proof.Machine
end

