-- ==== Sys2Proof/Laws/Bytes.lean ====
section
/-! SUPPORT. Lengths and entries of the byte strings the commands build: big-endian strings, numerals, Base32 text. -/

namespace Sys2Proof.Machine

@[simp] theorem be_length (n v : Nat) : (be n v).length = n := by induction n <;> simp_all [be]

/-- R9: the number a big-endian encoding writes. -/
theorem ube_be (n v : Nat) : ube (be n v) = v % 256 ^ n := by
  have step : ∀ (t : List Byte) (a : Nat), t.foldl (fun a b => 256 * a + b.toNat) a = a * 256 ^ t.length + ube t := by
    intro t
    induction t with
    | nil => intro a; simp [ube]
    | cons b t ih =>
      intro a
      simp only [ube, List.foldl_cons, List.length_cons]
      rw [ih, ih (256 * 0 + b.toNat)]
      ring
  induction n with
  | zero => simp [be, ube, Nat.mod_one]
  | succ n ih =>
    simp only [ube, be, List.foldl_cons]
    rw [step, ih, be_length, BitVec.toNat_ofNat, pow_succ 256 n, Nat.mod_mul (x := v) (a := 256 ^ n) (b := 256)]
    norm_num
    ring

@[simp] theorem lineWords_length (w k n : Nat) : (lineWords w k n).length = k := by
  induction k <;> simp_all [lineWords]

@[simp] theorem decimal_length (d n : Nat) : (decimal d n).length = d := by induction d <;> simp_all [decimal]

@[simp] theorem b32digits_length (m a : Nat) : (b32digits m a).length = m := by induction m <;> simp_all [b32digits]

@[simp] theorem b32pack_length (vs : List Nat) : (b32pack vs).length = 5 * vs.length / 8 := by simp [b32pack]

@[simp] theorem otpCode_length (x : HotpArgs) (c : Nat) : (otpCode x c).length = x.digits := by simp [otpCode]

@[simp] theorem entropyBytes_length (k n : Nat) (b : List Byte) : (entropyBytes k n b).length = n := by
  simp [entropyBytes]

theorem b32vals_length {t : List Byte} {vs : List Nat} (h : b32vals t = some vs) : vs.length = t.length := by
  induction t generalizing vs with
  | nil => cases h; rfl
  | cons c cs ih =>
    simp only [b32vals] at h
    split at h
    · rename_i hvs; cases h; simp [ih hvs]
    · cases h

theorem padRepair_length (t : List Byte) : (padRepair t).length = 8 * ((t.length + 7) / 8) := by
  unfold padRepair
  split
  · rw [List.length_append, List.length_replicate]; omega
  · omega

theorem trailingPad_le (t : List Byte) : trailingPad t ≤ t.length := by
  simpa [trailingPad] using (List.takeWhile_sublist (· == padChar) (l := t.reverse)).length_le

/-- R124: what a decode that succeeds has found. -/
theorem b32decode_cases {t r : List Byte} (h : b32decode t = some r) :
    ∃ vs p, p = trailingPad (padRepair (t.map upcase)) ∧
      b32vals ((padRepair (t.map upcase)).take ((padRepair (t.map upcase)).length - p)) = some vs ∧
      legalPadCount p = true ∧ r = b32pack vs := by
  unfold b32decode at h
  simp only at h
  split at h
  · cases h
  · split at h
    · cases h; exact ⟨_, _, rfl, ‹_›, ‹_›, rfl⟩
    · cases h

/-- R124: a decode has at most five bytes for eight characters. -/
theorem b32decode_length_le {t r : List Byte} (h : b32decode t = some r) : r.length ≤ 5 * ((t.length + 7) / 8) := by
  obtain ⟨vs, p, -, hv, -, rfl⟩ := b32decode_cases h
  have := b32vals_length hv
  have hl := padRepair_length (t.map upcase)
  simp only [List.length_take, List.length_map] at this hl
  simp only [b32pack_length]
  omega

end Sys2Proof.Machine
end

