-- ==== Sys2Proof/Laws/Port.lean ====
section
/-! SUPPORT. The laws of the host port: which place an offset names, and what a transaction can do. -/

namespace Sys2Proof.Machine

/-- R63: the offset of word `k` of a buffer. -/
theorem portPlace_buf (b : Buf) {k : Nat} (hk : 8 * k + 8 ≤ b.cap) : portPlace (b.base + 8 * k) = .buf b k := by
  have div : ∀ x y : Nat, (x + 8 * y - x) / 8 = y := by intros; omega
  cases b <;> simp only [Buf.cap, Config.candCap, Config.codestrCap, Config.textCap, Config.keyCap] at hk
  · rw [show Buf.cand.base = 0x80 from rfl, portPlace, if_neg (by omega), if_pos (by omega), div]
  · rw [show Buf.codestr.base = 0x90 from rfl, portPlace, if_neg (by omega), if_neg (by omega), if_pos (by omega), div]
  · rw [show Buf.text.base = 0x100 from rfl, portPlace, if_neg (by omega), if_neg (by omega), if_neg (by omega),
      if_neg (by omega), if_pos (by omega), div]
  · rw [show Buf.key.base = 0x200 from rfl, portPlace, if_neg (by omega), if_neg (by omega), if_neg (by omega),
      if_neg (by omega), if_neg (by omega), if_pos (by omega), div]

/-- R63: the offset of a register. -/
theorem portPlace_reg (r : Reg) : portPlace (8 * r.slot) = .reg r := by cases r <;> rfl

theorem portAccess_iff {a n : Nat} : portAccess a n = true ↔ a % 8 = 0 ∧ n = 8 ∧ a < 4096 := by
  simp [portAccess, Config.windowBytes, and_assoc]

theorem portAccess_buf (b : Buf) {k : Nat} (hk : 8 * k + 8 ≤ b.cap) : portAccess (b.base + 8 * k) 8 = true := by
  rw [portAccess_iff]
  refine ⟨?_, rfl, ?_⟩ <;> cases b <;>
    simp only [Buf.base, Buf.cap, Config.candCap, Config.codestrCap, Config.textCap, Config.keyCap] at hk ⊢ <;> omega

theorem portAccess_reg (r : Reg) : portAccess (8 * r.slot) 8 = true := by cases r <;> rfl

/-- A place that is a word of a buffer lies inside the buffer. -/
theorem portPlace_buf_inside {a : Nat} {b : Buf} {k : Nat} (h8 : a % 8 = 0) (h : portPlace a = .buf b k) :
    8 * k + 8 ≤ b.cap ∧ a = b.base + 8 * k := by
  have slot : ∀ n, slotPlace n ≠ .buf b k := fun n => by unfold slotPlace; split <;> simp
  unfold portPlace at h
  split at h
  · exact absurd h (slot _)
  all_goals
    (repeat' split at h) <;>
    first
    | cases h
      refine ⟨?_, ?_⟩
      · simp only [Buf.cap, Config.candCap, Config.codestrCap, Config.textCap, Config.keyCap]; omega
      · simp only [Buf.base]; omega
    | cases h

/-- R65: lane `j` of a word put together from eight bytes is byte `j`. -/
theorem leWord_lane {t : List Byte} (h : t.length = 8) {j : Nat} (hj : j < 8) :
    (leWord t).extractLsb' (8 * j) 8 = t.getD j 0 := by
  match t, h with
  | [a₀, a₁, a₂, a₃, a₄, a₅, a₆, a₇], _ =>
    apply BitVec.eq_of_toNat_eq
    simp only [leWord, BitVec.extractLsb'_toNat, BitVec.toNat_ofNat, List.foldr, Nat.shiftRight_eq_div_pow]
    have := a₀.isLt; have := a₁.isLt; have := a₂.isLt; have := a₃.isLt
    have := a₄.isLt; have := a₅.isLt; have := a₆.isLt; have := a₇.isLt
    interval_cases j <;> simp only [List.getD_cons_zero, List.getD_cons_succ] <;> omega

/-- R65: byte `j` of a word's lanes. -/
theorem leBytes_getD (v : Word) {j : Nat} (hj : j < 8) : (leBytes v).getD j 0 = v.extractLsb' (8 * j) 8 := by
  simp [leBytes, hj]

/-- R61, R72: a read answers with a word and touches the environment alone. -/
theorem hostRead_cases {a n : Nat} {s t : State} (h : hostRead a n s = .next t) :
    portAccess a n = true ∧ (t = s.replyFree ∧ s.status.busy = true ∨ ∃ v, t = s.reply v) := by
  unfold hostRead at h
  split at h
  · cases h
  · refine ⟨by simpa using (by assumption : ¬portAccess a n = false), ?_⟩
    split at h
    · rename_i hb; cases h; exact .inl ⟨rfl, hb.1⟩
    · cases h; exact .inr ⟨_, rfl⟩

/-- R62, R72: a write is dropped while `BUSY = 1`, and is the write of its place otherwise. -/
theorem hostWrite_cases {a n : Nat} {v : Word} {s t : State} (h : hostWrite a n v s = .next t) :
    portAccess a n = true ∧
      (s.status.busy = true ∧ t = s ∨ s.status.busy = false ∧ t = s.portWrite v (portPlace a)) := by
  unfold hostWrite at h
  split at h
  · cases h
  · refine ⟨by simpa using (by assumption : ¬portAccess a n = false), ?_⟩
    split at h
    · cases h; exact .inl ⟨‹_›, rfl⟩
    · cases h; exact .inr ⟨by simpa using (by assumption : ¬s.status.busy = true), rfl⟩

/-- R69 to R73: everything a host write that is not dropped for `BUSY = 1` can do. -/
theorem portWrite_cases (s : State) (v : Word) {a : Nat} (h8 : a % 8 = 0) :
    s.portWrite v (portPlace a) = s ∨
      (s.status.fatal = false ∧ s.portWrite v (portPlace a) = s.startCommand v) ∨
      (∃ r : Reg, r.configBearing = true ∧
        s.portWrite v (portPlace a) = (s.setReg r v).clearCfgValid) ∨
      s.portWrite v (portPlace a) = (s.setReg .ctr v).setCneg false ∨
      (∃ r ∈ [Reg.ts, .window, .len, .candLen], s.portWrite v (portPlace a) = s.setReg r v) ∨
      (∃ (b : Buf) (k : Nat), b ≠ .codestr ∧ 8 * k + 8 ≤ b.cap ∧
        s.portWrite v (portPlace a) =
          { s with
            mem := s.mem.write (b.base + 8 * k) (leBytes v)
            status := { s.status with cfgValid := s.status.cfgValid && !b.configBearing } }) := by
  cases hp : portPlace a with
  | cmd =>
    cases hf : s.status.fatal
    · exact .inr (.inl ⟨rfl, by simp [State.portWrite, State.writeCmd, hf]⟩)
    · exact .inl (by simp [State.portWrite, State.writeCmd, hf])
  | status => exact .inl rfl
  | reserved => exact .inl rfl
  | reg r =>
    cases r
    case rem => exact .inl rfl
    case code => exact .inl rfl
    case ctr => exact .inr (.inr (.inr (.inl rfl)))
    case ts => exact .inr (.inr (.inr (.inr (.inl ⟨.ts, by simp, rfl⟩))))
    case window => exact .inr (.inr (.inr (.inr (.inl ⟨.window, by simp, rfl⟩))))
    case len => exact .inr (.inr (.inr (.inr (.inl ⟨.len, by simp, rfl⟩))))
    case candLen => exact .inr (.inr (.inr (.inr (.inl ⟨.candLen, by simp, rfl⟩))))
    case t0 => exact .inr (.inr (.inl ⟨.t0, rfl, rfl⟩))
    case step => exact .inr (.inr (.inl ⟨.step, rfl, rfl⟩))
    case digits => exact .inr (.inr (.inl ⟨.digits, rfl, rfl⟩))
    case alg => exact .inr (.inr (.inl ⟨.alg, rfl, rfl⟩))
    case textLen => exact .inr (.inr (.inl ⟨.textLen, rfl, rfl⟩))
    case keyLen => exact .inr (.inr (.inl ⟨.keyLen, rfl, rfl⟩))
  | buf b k =>
    have hk := (portPlace_buf_inside h8 hp).1
    cases b
    case codestr => exact .inl rfl
    case cand =>
      refine .inr (.inr (.inr (.inr (.inr ⟨.cand, k, by simp, hk, ?_⟩))))
      simp [State.portWrite, State.writeBufWord, Buf.hostWritable, Buf.configBearing]
    case text =>
      refine .inr (.inr (.inr (.inr (.inr ⟨.text, k, by simp, hk, ?_⟩))))
      simp [State.portWrite, State.writeBufWord, Buf.hostWritable, Buf.configBearing, State.clearCfgValid]
    case key =>
      refine .inr (.inr (.inr (.inr (.inr ⟨.key, k, by simp, hk, ?_⟩))))
      simp [State.portWrite, State.writeBufWord, Buf.hostWritable, Buf.configBearing, State.clearCfgValid]

end Sys2Proof.Machine
end

