-- ==== Sys2Proof/Laws/Meanings.lean ====
section
/-! SUPPORT. For each shared operation and each command one lemma that says once everything it can do when it answers a
next state. -/

namespace Sys2Proof.Machine

/-! ## Draws and operands -/

/-- R38: a sample of the clock touches nothing of the block. -/
theorem State.timestamp_frame (w : Bool) (s : State) :
    (s.timestamp w).2.status = s.status ∧ (s.timestamp w).2.regs = s.regs ∧ (s.timestamp w).2.mem = s.mem ∧
      (s.timestamp w).2.pend = s.pend ∧ (s.timestamp w).2.env.schedule = s.env.schedule := by
  cases w
  · exact ⟨rfl, rfl, rfl, rfl, rfl⟩
  · simp only [State.timestamp, if_true, State.sampleClock]; split <;> exact ⟨rfl, rfl, rfl, rfl, rfl⟩

@[simp] theorem State.timestamp_status (w : Bool) (s : State) : (s.timestamp w).2.status = s.status :=
  (s.timestamp_frame w).1
@[simp] theorem State.timestamp_regs (w : Bool) (s : State) : (s.timestamp w).2.regs = s.regs :=
  (s.timestamp_frame w).2.1
@[simp] theorem State.timestamp_mem (w : Bool) (s : State) : (s.timestamp w).2.mem = s.mem :=
  (s.timestamp_frame w).2.2.1
@[simp] theorem State.timestamp_pend (w : Bool) (s : State) : (s.timestamp w).2.pend = s.pend :=
  (s.timestamp_frame w).2.2.2.1

/-- R39: a draw of entropy touches nothing of the block. -/
theorem State.drawEntropy_frame (s : State) (n : Nat) :
    (s.drawEntropy n).2.status = s.status ∧ (s.drawEntropy n).2.regs = s.regs ∧ (s.drawEntropy n).2.mem = s.mem ∧
      (s.drawEntropy n).2.pend = s.pend ∧ (s.drawEntropy n).2.env.schedule = s.env.schedule := by
  unfold State.drawEntropy; split <;> exact ⟨rfl, rfl, rfl, rfl, rfl⟩

@[simp] theorem State.drawEntropy_status (s : State) (n : Nat) : (s.drawEntropy n).2.status = s.status :=
  (s.drawEntropy_frame n).1
@[simp] theorem State.drawEntropy_regs (s : State) (n : Nat) : (s.drawEntropy n).2.regs = s.regs :=
  (s.drawEntropy_frame n).2.1
@[simp] theorem State.drawEntropy_mem (s : State) (n : Nat) : (s.drawEntropy n).2.mem = s.mem :=
  (s.drawEntropy_frame n).2.2.1
@[simp] theorem State.drawEntropy_pend (s : State) (n : Nat) : (s.drawEntropy n).2.pend = s.pend :=
  (s.drawEntropy_frame n).2.2.2.1

/-- R39: an answer has exactly the length asked for. -/
theorem State.drawEntropy_length {s : State} {n : Nat} {b : List Byte} (h : (s.drawEntropy n).1 = some b) :
    b.length = n := by
  unfold State.drawEntropy at h
  split at h
  · simp only at h
    split at h
    · cases h; exact entropyBytes_length _ _ _
    · cases h
  · cases h; exact entropyBytes_length _ _ _
  · cases h

/-- What the arguments of `hotp` are when there are any. -/
theorem State.hotpArgs_cases {s : State} {x : HotpArgs} (h : s.hotpArgs = some x) :
    ∃ a, Alg.ofCode s.regs.alg = some a ∧ x = s.configArgs a ∧ 6 ≤ s64 s.regs.digits ∧ s64 s.regs.digits ≤ 10 ∧
      s.regs.keyLen.toNat ≤ Config.keyCap := by
  simp only [State.hotpArgs] at h
  split at h
  · cases h
  · split at h
    · rename_i hh; cases h; exact ⟨_, ‹_›, rfl, hh.1, hh.2.1, hh.2.2⟩
    · cases h

/-- A constructed configuration gives arguments (R29, R155). -/
theorem State.hotpArgs_of_config {s : State} {a : Alg} (hi : s.configInv) (hc : s.status.cfgValid = true)
    (ha : Alg.ofCode s.regs.alg = some a) : s.hotpArgs = some (s.configArgs a) := by
  obtain ⟨-, h₆, h₁₀, -, -, hk, -⟩ := hi hc
  simp only [State.hotpArgs, ha]
  rw [if_pos ⟨h₆, h₁₀, hk⟩]; rfl

/-- The arguments depend on `DIGITS`, `ALG` and the key alone. -/
theorem State.hotpArgs_congr {s t : State} (hd : s.regs.digits = t.regs.digits) (ha : s.regs.alg = t.regs.alg)
    (hl : s.regs.keyLen = t.regs.keyLen)
    (hk : ∀ i < s.regs.keyLen.toNat, s.bufByte .key i = t.bufByte .key i) : s.hotpArgs = t.hotpArgs := by
  have : s.keyOperand = t.keyOperand := by
    simp only [State.keyOperand, State.buf, ← hl]; exact Memory.bytes_congr hk
  simp only [State.hotpArgs, hd, ha, hl, this]

theorem hotp_none_cases {x : HotpArgs} {c : Int} (h : hotp x c = none) : c < 0 ∨ 2 ^ 64 ≤ c := by
  unfold hotp at h
  split at h
  · assumption
  · cases h

theorem hotp_some_cases {x : HotpArgs} {c : Int} {n : Nat} {code : List Byte} (h : hotp x c = some (n, code)) :
    ∃ k : Nat, c = k ∧ k < 2 ^ 64 ∧ n = otpNumber x k ∧ code = otpCode x k := by
  unfold hotp at h
  split at h
  · cases h
  · rename_i hc; cases h; exact ⟨c.toNat, by omega, by omega, rfl, rfl⟩

/-- R162: a code number is below `2^31` and has at most `digits` digits. -/
theorem otpNumber_lt (x : HotpArgs) (c : Nat) : otpNumber x c < 2 ^ 31 ∧ otpNumber x c < 10 ^ x.digits := by
  simp only [otpNumber, otpNumeric, codeInt]
  generalize truncated _ = t
  exact ⟨lt_of_le_of_lt (Nat.mod_le _ _) (Nat.mod_lt _ (by norm_num)), Nat.mod_lt _ (by positivity)⟩

/-- R205: the loop finds a match exactly when some counter of its range has the candidate as its code. -/
theorem windowMatch_iff (x : HotpArgs) (cand : List Byte) (lo n : Nat) :
    windowMatch x cand lo n = true ↔ ∃ c, lo ≤ c ∧ c < lo + n ∧ otpCode x c = cand := by
  induction n generalizing lo with
  | zero => simp [windowMatch]; intros; omega
  | succ n ih =>
    simp only [windowMatch, Bool.or_eq_true, beq_iff_eq, ih]
    constructor
    · rintro (h | ⟨c, h₁, h₂, h₃⟩)
      · exact ⟨lo, le_refl _, by omega, h⟩
      · exact ⟨c, by omega, by omega, h₃⟩
    · rintro ⟨c, h₁, h₂, h₃⟩
      rcases Nat.eq_or_lt_of_le h₁ with rfl | h
      · exact .inl h₃
      · exact .inr ⟨c, h, by omega, h₃⟩

/-! ## Arithmetic of the divider -/

theorem s64_range (v : Word) : -(2 ^ 63) ≤ s64 v ∧ s64 v < 2 ^ 63 := ⟨BitVec.le_toInt v, BitVec.toInt_lt⟩

/-- R141: quotient and remainder of `fdiv` and `fmod`. -/
theorem fdiv_fmod_spec (d k : Int) (h : 0 < k) : d = d.fdiv k * k + d.fmod k ∧ 0 ≤ d.fmod k ∧ d.fmod k < k := by
  refine ⟨?_, Int.fmod_nonneg_of_pos _ h, Int.fmod_lt_of_pos _ h⟩
  have := Int.mul_fdiv_add_fmod d k
  linarith [mul_comm k (d.fdiv k)]

/-- The counter of 64-bit operands fits `CNEG:CTR`. -/
theorem counterOf_range (x y k : Word) (h : 0 < s64 k) :
    -(2 ^ 64 - 1) ≤ counterOf (s64 x) (s64 y) (s64 k) ∧ counterOf (s64 x) (s64 y) (s64 k) ≤ 2 ^ 64 - 1 := by
  have r₁ := s64_range x
  have r₂ := s64_range y
  obtain ⟨h₁, h₂, h₃⟩ := fdiv_fmod_spec (s64 x - s64 y) (s64 k) h
  simp only [counterOf]
  generalize (s64 x - s64 y).fdiv (s64 k) = q at *
  generalize (s64 x - s64 y).fmod (s64 k) = r at *
  generalize s64 x = a at *
  generalize s64 y = b at *
  generalize s64 k = c at *
  constructor <;> nlinarith

/-! ## The commands -/

variable {s t : State} {w : Bool}

theorem execMkcfg_cases (h : execMkcfg s = .next t) :
    (∃ k, k ≠ .entropyUnavailable ∧ t = s.raise k) ∨
      ∃ r, s.regs.textLen.toNat ≤ Config.textCap ∧ b32decode s.textOperand = some r ∧ 0 < s64 s.regs.step ∧
        6 ≤ s64 s.regs.digits ∧ s64 s.regs.digits ≤ 10 ∧ (Alg.ofCode s.regs.alg).isSome = true ∧
        t = ((s.storeKey r).setCfgValid).succeed := by
  unfold execMkcfg at h
  split at h
  · cases h; exact .inl ⟨_, by simp, rfl⟩
  split at h
  · cases h; exact .inl ⟨_, by simp, rfl⟩
  split at h
  · cases h; exact .inl ⟨_, by simp, rfl⟩
  split at h
  · cases h; exact .inl ⟨_, by simp, rfl⟩
  split at h
  · cases h; exact .inl ⟨_, by simp, rfl⟩
  · cases h
    exact .inr ⟨_, by omega, ‹_›, by omega, by omega, by omega, by rwa [← Option.ne_none_iff_isSome], rfl⟩

theorem execB32dec_cases (h : execB32dec s = .next t) :
    (∃ k, k ≠ .entropyUnavailable ∧ t = s.raise k) ∨
      ∃ r, s.regs.textLen.toNat ≤ Config.textCap ∧ b32decode s.textOperand = some r ∧ t = (s.storeKey r).succeed := by
  unfold execB32dec at h
  split at h
  · cases h; exact .inl ⟨_, by simp, rfl⟩
  split at h
  · cases h; exact .inl ⟨_, by simp, rfl⟩
  · cases h; exact .inr ⟨_, by omega, ‹_›, rfl⟩

theorem execB32enc_cases (h : execB32enc s = .next t) :
    (∃ k, k ≠ .entropyUnavailable ∧ t = s.raise k) ∨ t = (s.storeText (b32encode s.keyOperand)).succeed := by
  unfold execB32enc at h
  split at h
  · cases h; exact .inl ⟨_, by simp, rfl⟩
  · cases h; exact .inr rfl

theorem generateSecret_cases (s : State) (n : Nat) :
    ((s.drawEntropy n).1 = none ∧ s.generateSecret n = (s.drawEntropy n).2.enterFatal) ∨
      ∃ b, (s.drawEntropy n).1 = some b ∧ b.length = n ∧
        s.generateSecret n = (((s.drawEntropy n).2.storeKey b).storeText (b32encode b)).succeed := by
  have hl : ∀ b, (s.drawEntropy n).1 = some b → b.length = n := fun b => State.drawEntropy_length
  unfold State.generateSecret
  generalize s.drawEntropy n = p at *
  obtain ⟨_ | b, u⟩ := p
  · exact .inl ⟨rfl, rfl⟩
  · exact .inr ⟨b, rfl, hl b rfl, rfl⟩

theorem execRand_cases (h : execRand s = .next t) :
    t = s.raise .invalidLength ∨
      (1 ≤ s64 s.regs.len ∧ s64 s.regs.len ≤ 160 ∧ t = s.generateSecret (s64 s.regs.len).toNat) := by
  unfold execRand at h
  simp only [Config.keyCap] at h
  split at h
  · cases h; exact .inl rfl
  · cases h; exact .inr ⟨by omega, by push_cast at *; omega, rfl⟩

theorem execGensec_cases (h : execGensec s = .next t) :
    t = s.raise .invalidLength ∨
      (16 ≤ s64 s.regs.len ∧ s64 s.regs.len ≤ 64 ∧ t = s.generateSecret (s64 s.regs.len).toNat) := by
  unfold execGensec at h
  split at h
  · cases h; exact .inl rfl
  · cases h; exact .inr ⟨by omega, by omega, rfl⟩

theorem execClock_cases (h : execClock w s = .next t) :
    t = s.raise .invalidParameter ∨
      (0 < s64 s.regs.step ∧
        t = ((((s.timestamp w).2.setReg .ts (s.timestamp w).1).setCounter
            (counterOf (s64 (s.timestamp w).1) (s64 s.regs.t0) (s64 s.regs.step))).setReg .rem
            (u64 (timeRemaining (s64 (s.timestamp w).1) (s64 s.regs.t0) (s64 s.regs.step)))).succeed) := by
  unfold execClock at h
  split at h
  · cases h; exact .inl rfl
  · cases h; exact .inr ⟨by omega, rfl⟩

theorem execHotp_cases (h : execHotp s = .next t) :
    (∃ k, k ≠ .entropyUnavailable ∧ t = s.raise k) ∨
      ∃ x c, s.status.cfgValid = true ∧ s.hotpArgs = some x ∧ s.counterOperand = (c : Nat) ∧ c < 2 ^ 64 ∧
        t = (s.setCode (otpNumber x c) (otpCode x c)).succeed := by
  unfold execHotp at h
  split at h
  · cases h; exact .inl ⟨_, by simp, rfl⟩
  split at h
  · cases h
  split at h
  · cases h; exact .inl ⟨_, by simp, rfl⟩
  · rename_i hh
    cases h
    obtain ⟨c, hc, hlt, rfl, rfl⟩ := hotp_some_cases hh
    exact .inr ⟨_, c, by simp_all, ‹_›, hc, hlt, rfl⟩

theorem execGen_cases (h : execGen w s = .next t) :
    t = s.raise .noConfig ∨
      (s.status.cfgValid = true ∧ t = (s.timestamp w).2.raise .invalidParameter) ∨
      ∃ x c, s.status.cfgValid = true ∧ 0 < s64 s.regs.step ∧ s.hotpArgs = some x ∧
        counterOf (s64 (s.timestamp w).1) (s64 s.regs.t0) (s64 s.regs.step) = (c : Nat) ∧ c < 2 ^ 64 ∧
        t = (((((s.timestamp w).2.setReg .ts (s.timestamp w).1).setCounter c).setReg .rem
            (u64 (timeRemaining (s64 (s.timestamp w).1) (s64 s.regs.t0) (s64 s.regs.step)))).setCode
            (otpNumber x c) (otpCode x c)).succeed := by
  unfold execGen at h
  split at h
  · cases h; exact .inl rfl
  have hc : s.status.cfgValid = true := by simpa using (by assumption : ¬s.status.cfgValid = false)
  split at h
  · cases h
  have hs : 0 < s64 s.regs.step := by omega
  split at h
  · cases h
  rename_i x hx
  simp only at h
  split at h
  · cases h; exact .inr (.inl ⟨hc, rfl⟩)
  · rename_i hh
    cases h
    obtain ⟨c, hcc, hlt, rfl, rfl⟩ := hotp_some_cases hh
    exact .inr (.inr ⟨x, c, hc, hs, hx, hcc, hlt, by rw [hcc]⟩)

theorem execVerify_cases (h : execVerify w s = .next t) :
    (∃ k, k ≠ .entropyUnavailable ∧ (t = s.raiseVerify k ∨ t = (s.timestamp w).2.raiseVerify k)) ∨
      ∃ x m, s.status.cfgValid = true ∧ s.hotpArgs = some x ∧
        t = (((s.timestamp w).2.setReg .ts (s.timestamp w).1).setMatch m).succeed := by
  unfold execVerify at h
  split at h
  · cases h; exact .inl ⟨_, by simp, .inl rfl⟩
  have hc : s.status.cfgValid = true := by simpa using (by assumption : ¬s.status.cfgValid = false)
  split at h
  · cases h; exact .inl ⟨_, by simp, .inl rfl⟩
  split at h
  · cases h; exact .inl ⟨_, by simp, .inl rfl⟩
  split at h
  · cases h
  split at h
  · cases h
  rename_i x hx
  simp only at h
  split at h
  · cases h; exact .inl ⟨_, by simp, .inr rfl⟩
  · cases h; exact .inr ⟨x, _, hc, hx, rfl⟩

/-! ## Completion and steps -/

theorem complete_cases (h : complete s = .next t) :
    (decode s.pend = none ∧ t = s.raise .illegalCommand) ∨ ∃ i, decode s.pend = some i ∧ exec i s = .next t := by
  unfold complete at h
  split at h
  · cases h; exact .inl ⟨‹_›, rfl⟩
  · exact .inr ⟨_, ‹_›, h⟩

/-- Everything one step can do when it answers a next state. -/
theorem step_cases (h : step s = .next t) :
    (s.resetNext ∧ ∃ ts, t = (s.withSchedule ts).resetInput) ∨
      (∃ ts, s.status.busy = false ∧ t = s.withSchedule ts) ∨
      (s.engineNext ∧ ∃ ts, complete (s.withSchedule ts) = .next t) ∨
      (∃ ts a n, hostRead a n (s.withSchedule ts) = .next t) ∨
      ∃ ts a n v, hostWrite a n v (s.withSchedule ts) = .next t := by
  unfold step at h
  split at h
  · rename_i hs
    have e : s.withSchedule [] = s := by simp only [State.withSchedule, ← hs]
    unfold engineTurn at h
    split at h
    · exact .inr (.inr (.inl ⟨⟨‹_›, .inl hs⟩, [], by rw [e]; exact h⟩))
    · cases h; exact .inr (.inl ⟨[], by simp_all, e.symm⟩)
  · rename_i ts hs
    unfold engineTurn at h
    split at h
    · exact .inr (.inr (.inl ⟨⟨‹_›, .inr ⟨ts, hs⟩⟩, ts, h⟩))
    · cases h; exact .inr (.inl ⟨ts, by simp_all, rfl⟩)
  · rename_i tr ts hs
    cases tr with
    | read a n => exact .inr (.inr (.inr (.inl ⟨ts, a, n, h⟩)))
    | write a n v => exact .inr (.inr (.inr (.inr ⟨ts, a, n, v, h⟩)))
  · rename_i ts hs
    cases h; exact .inl ⟨⟨ts, hs⟩, ts, rfl⟩

end Sys2Proof.Machine
end

