-- ==== Sys2Proof/Laws/PerInstr.lean ====
section
/-! SUPPORT. What is said of every command as syntax, one lemma per constructor: it is well formed, and its word passes
the three checks of R94 and lies below `2^9` (R90). -/

namespace Sys2Proof.Laws

/-- R90, R94: the command is well formed and its word is a legal one with `RSV = 0`. -/
abbrev WordForm.Statement (i : Instr) : Prop :=
  i.wf = true ∧ CommandWord.legal (encode i) = true ∧ (encode i).toNat < 512

theorem WordForm.mkcfg : WordForm.Statement .mkcfg := by decide

theorem WordForm.gen (w : Bool) : WordForm.Statement (.gen w) := by revert w; decide

theorem WordForm.verify (w : Bool) : WordForm.Statement (.verify w) := by revert w; decide

theorem WordForm.gensec : WordForm.Statement .gensec := by decide

theorem WordForm.b32dec : WordForm.Statement .b32dec := by decide

theorem WordForm.b32enc : WordForm.Statement .b32enc := by decide

theorem WordForm.clock (w : Bool) : WordForm.Statement (.clock w) := by revert w; decide

theorem WordForm.hotp : WordForm.Statement .hotp := by decide

theorem WordForm.rand : WordForm.Statement .rand := by decide

end Sys2Proof.Laws
end

