-- ==== Sys2Proof/Tests/Slice0.lean ====
section
/-! SUPPORT. Tests, each with its expected values from spec/95_test_vectors.md or from the rules, and one witness for
the hypotheses of each statement. -/

open Sys2Proof Sys2Proof.Machine

namespace Sys2Proof.Tests

set_option Elab.async false

/-! ## Words: the checks of R94, and each command's word written out from R92 -/

theorem test_smoke_op_undefined : CommandWord.legal 0x000 = false ∧ CommandWord.legal 0x005 = false ∧
    CommandWord.legal 0x015 = false ∧ CommandWord.legal 0x0FF = false := by decide

theorem test_smoke_rsv_set : CommandWord.legal 0x201 = false ∧ CommandWord.legal 0x8000000000000002 = false := by
  decide

theorem test_smoke_w_not_allowed : CommandWord.legal 0x101 = false ∧ CommandWord.legal 0x113 = false ∧
    CommandWord.legal 0x114 = false := by decide

theorem test_smoke_decode_refuses : ∀ v ∈ [0x000, 0x005, 0x015, 0x201, 0x8000000000000002, 0x101, 0x104, 0x110, 0x111,
    0x113, 0x114], decode (BitVec.ofNat 64 v) = none := by decide +kernel

theorem test_decode_mkcfg : decode (0b000000001#64) = some .mkcfg := by decide

theorem test_decode_gensec : decode (0b000000100#64) = some .gensec := by decide

theorem test_decode_b32dec : decode (0b000010000#64) = some .b32dec := by decide

theorem test_decode_b32enc : decode (0b000010001#64) = some .b32enc := by decide

theorem test_decode_hotp : decode (0b000010011#64) = some .hotp := by decide

theorem test_decode_rand : decode (0b000010100#64) = some .rand := by decide

theorem test_decode_gen : decode (0b000000010#64) = some (.gen false) ∧ decode (0b100000010#64) = some (.gen true) := by
  decide

theorem test_decode_verify : decode (0b000000011#64) = some (.verify false) ∧ decode (0b100000011#64) = some (.verify true) := by
  decide

theorem test_decode_clock : decode (0b000010010#64) = some (.clock false) ∧ decode (0b100010010#64) = some (.clock true) := by
  decide

/-! ## Hashes, HMAC and Base32 (95_test_vectors.md, 2.1 and 2.2) -/

/-- `K20` of 95_test_vectors.md. -/
def k20 : List Byte :=
    [0x31, 0x32, 0x33, 0x34, 0x35, 0x36, 0x37, 0x38, 0x39, 0x30, 0x31, 0x32, 0x33, 0x34, 0x35, 0x36,
     0x37, 0x38, 0x39, 0x30]

/-- `S20` of 95_test_vectors.md. -/
def s20 : List Byte :=
    [0x47, 0x45, 0x5A, 0x44, 0x47, 0x4E, 0x42, 0x56, 0x47, 0x59, 0x33, 0x54, 0x51, 0x4F, 0x4A, 0x51,
     0x47, 0x45, 0x5A, 0x44, 0x47, 0x4E, 0x42, 0x56, 0x47, 0x59, 0x33, 0x54, 0x51, 0x4F, 0x4A, 0x51]

theorem test_sha1_abc : sha1 [0x61, 0x62, 0x63] =
    [0xA9, 0x99, 0x3E, 0x36, 0x47, 0x06, 0x81, 0x6A, 0xBA, 0x3E, 0x25, 0x71, 0x78, 0x50, 0xC2, 0x6C,
     0x9C, 0xD0, 0xD8, 0x9D] := by
  decide +kernel

theorem test_sha256_abc : sha256 [0x61, 0x62, 0x63] =
    [0xBA, 0x78, 0x16, 0xBF, 0x8F, 0x01, 0xCF, 0xEA, 0x41, 0x41, 0x40, 0xDE, 0x5D, 0xAE, 0x22, 0x23,
     0xB0, 0x03, 0x61, 0xA3, 0x96, 0x17, 0x7A, 0x9C, 0xB4, 0x10, 0xFF, 0x61, 0xF2, 0x00, 0x15, 0xAD] := by
  decide +kernel

theorem test_sha512_abc : sha512 [0x61, 0x62, 0x63] =
    [0xDD, 0xAF, 0x35, 0xA1, 0x93, 0x61, 0x7A, 0xBA, 0xCC, 0x41, 0x73, 0x49, 0xAE, 0x20, 0x41, 0x31,
     0x12, 0xE6, 0xFA, 0x4E, 0x89, 0xA9, 0x7E, 0xA2, 0x0A, 0x9E, 0xEE, 0xE6, 0x4B, 0x55, 0xD3, 0x9A,
     0x21, 0x92, 0x99, 0x2A, 0x27, 0x4F, 0xC1, 0xA8, 0x36, 0xBA, 0x3C, 0x23, 0xA3, 0xFE, 0xEB, 0xBD,
     0x45, 0x4D, 0x44, 0x23, 0x64, 0x3C, 0xE8, 0x0E, 0x2A, 0x9A, 0xC9, 0x4F, 0xA5, 0x4C, 0xA4, 0x9F] := by
  decide +kernel

/-- A key one byte longer than the block: it is hashed first (R176). -/
theorem test_hmac_long_key :
    hmac .sha1 ((List.range 65).map (BitVec.ofNat 8)) (counterBytes 1) =
    [0x7F, 0x7B, 0xB6, 0xB5, 0x3D, 0x6F, 0x4D, 0xE3, 0xE5, 0xD2, 0x5F, 0xDD, 0xFE, 0x35, 0x65, 0x29,
     0x48, 0x70, 0x57, 0xDC] := by
  decide +kernel

theorem test_hmac_sha512_block_key :
    (hmac .sha512 ((List.range 128).map (BitVec.ofNat 8)) (counterBytes 1)).take 8 =
    [0xBE, 0x26, 0xB9, 0x45, 0xEF, 0xD3, 0xAC, 0x5C] := by
  decide +kernel

/-- `JBSWY3D` is repaired, `JBSWY3DP=` is not valid (V6); `M3` drops its two low bits (D16). -/
theorem test_decode_texts :
    b32decode [0x4A, 0x42, 0x53, 0x57, 0x59, 0x33, 0x44] = some [0x48, 0x65, 0x6C, 0x6C] ∧
    b32decode [0x4A, 0x42, 0x53, 0x57, 0x59, 0x33, 0x44, 0x50, 0x3D] = none ∧
    b32decode [0x6D, 0x79] = some [0x66] ∧ b32decode [0x4D, 0x33, 0x3D, 0x3D, 0x3D, 0x3D, 0x3D, 0x3D] = some [0x66] ∧
    b32decode [0x4D, 0x59, 0x3D, 0x3D, 0x4D, 0x59, 0x3D, 0x3D] = none ∧ b32decode [0x4D, 0x5A, 0x58, 0x57, 0x36, 0x59] = none ∧
    b32decode [] = some [] := by
  decide +kernel

/-! ## Steps -/

/-- One step from a state with the word `v` as its next command. -/
def ran (v : Nat) (s : State) : Option State :=
  match step (s.withFetchWord 64 v) with
  | .next t => some t
  | _ => none

/-- The state an outcome answers, if any. -/
def answer : Host.Outcome State Fault Refusal → Option State
  | .next t => some t
  | _ => none

/-- `S20` in `TEXT`, as a host loads it, the other registers at their reset values. -/
def loaded : State :=
  { State.reset with
    regs := { Regs.reset with textLen := 32 }
    mem := Memory.write [] Buf.text.base s20 }

/-- The configuration of 95_test_vectors.md 2.6: `S20`, step 30, `T0 = 0`, SHA1, 8 digits, at timestamp `ts`. -/
def configured (ts : Word) : State :=
  { loaded with
    status := { Status.reset with cfgValid := true }
    regs := { loaded.regs with ts := ts, digits := 8, keyLen := 20 }
    mem := loaded.mem.write Buf.key.base k20 }

/-- The same with the candidate `94287082` and a window. -/
def candidate (ts window : Word) : State :=
  { configured ts with
    regs := { (configured ts).regs with window := window, candLen := 8 }
    mem := (configured ts).mem.write Buf.cand.base [0x39, 0x34, 0x32, 0x38, 0x37, 0x30, 0x38, 0x32] }

/-- A state with an answer of the entropy source and a length. -/
def seeded (n : Word) (e : EntropyAnswer) : State :=
  { State.reset with regs := { Regs.reset with len := n }, env := { Env.reset with entropy := [e] } }

/-- 2.5: `S20` with the defaults. -/
theorem test_mkcfg_stores : (ran 0x001 loaded).map (fun t =>
    (t.status.err, t.status.cfgValid, t.status.busy, t.regs.keyLen, t.buf .key 20)) =
    some (0, true, false, 20, k20) := by decide +kernel

/-- 2.5: `S20`, `STEP = 0`, `DIGITS = 5`, `ALG = 3`: the step is checked first; then the digits, then the hash. -/
theorem test_mkcfg_order : (ran 0x001 { loaded with regs := { loaded.regs with step := 0, alg := 3 } }).map
      (fun t => (t.status.err, t.status.cfgValid, t.regs.keyLen)) = some (3, false, 0) ∧
    (ran 0x001 { loaded with regs := { loaded.regs with alg := 3 } }).map (fun t => t.status.err) = some 2 := by
  decide +kernel

/-- V2. -/
theorem test_gen_v2 : (ran 0x002 (configured 59)).map (fun t =>
    (t.status.err, t.regs.ctr, t.regs.rem, t.regs.code, t.buf .codestr 9)) =
    some (0, 1, 1, 94287082, [0x39, 0x34, 0x32, 0x38, 0x37, 0x30, 0x38, 0x32] ++ [0]) := by decide +kernel

/-- 2.6: `GEN.W` with the wall clock answering -1: no code, `TS` as it was. -/
theorem test_gen_before_t0 : (ran 0x102 { configured 59 with env := { Env.reset with clock := [-1] } }).map (fun t =>
    (t.status.err, t.regs.ts, t.regs.ctr, t.regs.rem, t.regs.code)) = some (3, 59, 0, 0, 0) := by decide +kernel

/-- V5. -/
theorem test_verify_window : (ran 0x003 (candidate 89 1)).map (fun t => (t.status.err, t.status.matched)) =
      some (0, true) ∧
    (ran 0x003 (candidate 119 1)).map (fun t => (t.status.err, t.status.matched)) = some (0, false) := by
  decide +kernel

/-- 2.7: the window would begin at counter -1; the error clears `MATCH`. -/
theorem test_verify_negative : (ran 0x003 { candidate 29 1 with
      status := { (candidate 29 1).status with matched := true } }).map (fun t => (t.status.err, t.status.matched)) =
    some (3, false) := by decide +kernel

/-- R222: below the policy; and 32 bytes give a text of 56 characters (V8). -/
theorem test_gensec : (ran 0x004 (seeded 15 (.bytes []))).map (fun t => t.status.err) = some 4 ∧
    (ran 0x004 (seeded 32 (.bytes (List.replicate 32 0)))).map (fun t =>
      (t.status.err, t.regs.textLen, t.regs.keyLen, t.buf .text 56)) =
      some (0, 56, 32, List.replicate 52 0x41 ++ List.replicate 4 0x3D) := by decide +kernel

theorem test_b32dec : (ran 0x010 { loaded with
      status := { Status.reset with cfgValid := true } }).map (fun t =>
      (t.status.err, t.status.cfgValid, t.regs.keyLen, t.buf .key 20)) = some (0, false, 20, k20) ∧
    (ran 0x010 { loaded with regs := { Regs.reset with textLen := 257 } }).map (fun t => t.status.err) = some 7 := by
  decide +kernel

theorem test_b32enc : (ran 0x011 { configured 0 with mem := Memory.write [] Buf.key.base k20 }).map (fun t =>
      (t.status.err, t.status.cfgValid, t.regs.textLen, t.buf .text 32)) = some (0, false, 32, s20) ∧
    (ran 0x011 { loaded with regs := { Regs.reset with keyLen := 161 } }).map (fun t => t.status.err) = some 7 := by
  decide +kernel

/-- 2.3: the rows `-31, 0, 30` and `-2^63, 2^63-1, 1`. -/
theorem test_clock_negative : (ran 0x012 { State.reset with regs := { Regs.reset with ts := -31 } }).map (fun t =>
      (t.regs.ctr, t.status.cneg, t.regs.rem)) = some (0xFFFFFFFFFFFFFFFE, true, 1) ∧
    (ran 0x012 { State.reset with regs := { Regs.reset with
      ts := 0x8000000000000000, t0 := 0x7FFFFFFFFFFFFFFF, step := 1 } }).map (fun t =>
      (t.regs.ctr, t.status.cneg, t.regs.rem)) = some (1, true, 1) := by decide +kernel

/-- 2.3: the row `59, 100, 30` with the wall clock answering 59. -/
theorem test_clock_wall : (ran 0x112 { State.reset with
      regs := { Regs.reset with t0 := 100 }, env := { Env.reset with clock := [59] } }).map (fun t =>
      (t.regs.ts, t.regs.ctr, t.status.cneg, t.regs.rem)) = some (59, 0xFFFFFFFFFFFFFFFE, true, 11) := by
  decide +kernel

/-- 2.4: counter 44 gives 152 and `000152`. -/
theorem test_hotp_leading_zeros : (ran 0x013 { configured 0 with
      regs := { (configured 0).regs with ctr := 44, digits := 6 } }).map (fun t =>
      (t.status.err, t.regs.code, t.buf .codestr 7)) =
    some (0, 152, [0x30, 0x30, 0x30, 0x31, 0x35, 0x32] ++ [0]) := by decide +kernel

theorem test_hotp_errors : (ran 0x013 State.reset).map (fun t => t.status.err) = some 5 ∧
    (ran 0x013 { configured 0 with status := { (configured 0).status with cneg := true } }).map (fun t =>
      (t.status.err, t.regs.code)) = some (3, 0) := by decide +kernel

/-- 2.2 backwards: the bytes `48656c6c6f` have the text `JBSWY3DP`. -/
theorem test_rand : (ran 0x014 (seeded 5 (.bytes [0x48, 0x65, 0x6C, 0x6C, 0x6F]))).map (fun t =>
      (t.status.err, t.buf .key 6, t.buf .text 9)) =
    some (0, [0x48, 0x65, 0x6C, 0x6C, 0x6F] ++ [0], [0x4A, 0x42, 0x53, 0x57, 0x59, 0x33, 0x44, 0x50] ++ [0]) := by
  decide +kernel

/-- R243. -/
theorem test_rand_unavailable : (ran 0x014 (seeded 5 .unavailable)).map (fun t =>
    (t.status.err, t.status.fatal, t.status.busy, t.regs.keyLen)) = some (8, true, false, 0) := by decide +kernel

/-- R94: an illegal word completes with `ERR = 6`. -/
theorem test_illegal_word : (ran 0x101 loaded).map (fun t => (t.status.err, t.status.cfgValid)) = some (6, false) := by
  decide +kernel

/-- R65, R69: a write of a word of `KEY` and the read that follows; `CFG_VALID` is cleared. -/
theorem test_port_key_word :
    (answer (hostWrite 0x208 8 0x1122334455667788 (configured 0))).map (fun t =>
      (t.bufByte .key 8, t.bufByte .key 15, t.bufByte .key 16, t.status.cfgValid)) =
      some (0x88, 0x11, 0x37, false) ∧
    (answer (hostRead 0x200 8 (configured 0))).map (fun t => t.env.replies) = some [0x3837363534333231] := by
  decide +kernel

/-! ## Witnesses: for each statement with hypotheses, states and operands that meet them, at the ends of their ranges -/

theorem of_answer {o : Host.Outcome State Fault Refusal} {P : State → Bool} (h : (answer o).any P = true) :
    ∃ t, o = .next t ∧ P t = true := by
  cases o <;> simp_all [answer]

theorem configured_inv : (configured 59).configInv := fun _ => by decide +kernel

theorem witness_IllegalWordRaisesIllegalCommand :
    (∀ v ∈ [0x000, 0x005, 0x00F, 0x015, 0x0FF, 0x200, 0x8000000000000001, 0x101, 0x114],
      illegalBits (BitVec.ofNat 64 v)) ∧
      State.reset.status.busy = false ∧ State.reset.status.fatal = false ∧
      ({ State.reset with pend := 0x101 } : State).pend = 0x101 := by
  unfold illegalBits; decide +kernel

theorem witness_StepRunsDecodedCommand :
    (State.reset.withFetchWord 64 0x102).engineNext ∧ decode (State.reset.withFetchWord 64 0x102).pend = some (.gen true) ∧
      (State.reset.startCommand 0x001).engineNext ∧ decode (State.reset.startCommand 0x001).pend = some .mkcfg ∧
      (State.reset.withFetchWord 64 0x101).engineNext ∧ illegalBits (State.reset.withFetchWord 64 0x101).pend ∧
      (State.reset.startCommand 0x000).engineNext ∧ illegalBits (State.reset.startCommand 0x000).pend :=
  ⟨⟨rfl, .inr ⟨_, rfl⟩⟩, by decide, ⟨rfl, .inl rfl⟩, by decide, ⟨rfl, .inr ⟨_, rfl⟩⟩, by unfold illegalBits; decide,
    ⟨rfl, .inl rfl⟩, by unfold illegalBits; decide⟩

theorem witness_ScheduledTurnsTaken :
    (State.reset.withSchedule [.host (.read 8 8)]).env.schedule = .host (.read 8 8) :: [] ∧
      (State.reset.withSchedule [.host (.write 0xFF8 8 1)]).env.schedule = .host (.write 0xFF8 8 1) :: [] ∧
      (State.reset.withSchedule [.engine]).env.schedule = .engine :: [] ∧
      (State.reset.withSchedule [.engine]).status.busy = false ∧ State.reset.env.schedule = [] ∧
      State.reset.status.busy = false := by decide

theorem witness_ResetPutsEveryValue : ((configured 59).withSchedule [.reset]).env.schedule = .reset :: [] := by decide

theorem witness_CommandWriteStarts :
    (State.reset.status.busy = false ∧ State.reset.status.fatal = false) ∧
      (State.reset.startCommand 1).status.busy = true ∧ State.reset.enterFatal.status.fatal = true := by decide

theorem witness_RegisterSlotReads : (configured 59).status.busy = false := by decide

theorem witness_BufferLanesLittleEndian : (configured 59).status.busy = false ∧
    ∀ x ∈ [(Buf.cand, 0), (.cand, 1), (.codestr, 0), (.codestr, 1), (.text, 0), (.text, 31), (.key, 0), (.key, 19)],
      8 * x.2 + 8 ≤ x.1.cap := by decide

theorem witness_HostWriteSideEffects : (configured 59).status.busy = false ∧ (configured 59).status.fatal = false ∧
    (8 * 31 + 8 ≤ Buf.text.cap ∧ 8 * 19 + 8 ≤ Buf.key.cap) ∧
    ∃ t, hostRead 0xFF8 8 (configured 59) = .next t := ⟨by decide, by decide, by decide, _, rfl⟩

theorem witness_ReservedOffsetsInert : (∀ a ∈ [0x078, 0x0A0, 0x0F8, 0x2A0, 0xFF8], a % 8 = 0 ∧ reservedOffset a) ∧
    State.reset.status.busy = false := by unfold reservedOffset; decide

theorem witness_ReadOnlyWritesDropped : State.reset.status.busy = false := by decide

theorem witness_BusyIntervalRules : (State.reset.startCommand 1).status.busy = true ∧
    ∀ a ∈ [0, 8, 4088], a % 8 = 0 ∧ a < 4096 := by decide

theorem witness_FatalOnlyDropsCommands : State.reset.enterFatal.status.busy = false ∧
    State.reset.enterFatal.status.fatal = true ∧ ∀ a ∈ [16, 0x208, 4088], a % 8 = 0 ∧ a < 4096 ∧ a ≠ 0 ∧ a ≠ 8 := by
  decide

theorem witness_OnlyAlignedWordsExist :
    (∀ x ∈ [(4, 8), (1, 8), (0, 4), (0, 16), (4096, 8)], ¬(x.1 % 8 = 0 ∧ x.2 = 8 ∧ x.1 < 4096)) ∧
      ∀ x ∈ [(0, 8), (4088, 8)], x.1 % 8 = 0 ∧ x.2 = 8 ∧ x.1 < 4096 := by decide

theorem witness_EntropyAnswersFree : ((seeded 1 (.bytes [7])).drawEntropy 1).1 = some [7] := by decide

/-- `TEXT_LEN = 257`; 256 bytes that do not decode; the step; digits 5 and 11; a hash code of 3. -/
theorem witness_MkcfgChecksInOrder :
    (256 < ({ State.reset with regs := { Regs.reset with textLen := 257 } } : State).regs.textLen.toNat) ∧
      (({ State.reset with regs := { Regs.reset with textLen := 256 } } : State).regs.textLen.toNat ≤ 256 ∧
        b32decode ({ State.reset with regs := { Regs.reset with textLen := 256 } } : State).textOperand = none) ∧
      loaded.regs.textLen.toNat ≤ 256 ∧ b32decode loaded.textOperand = some k20 ∧ s64 0 ≤ 0 ∧ 0 < s64 1 ∧
      s64 5 < 6 ∧ 10 < s64 11 ∧ 6 ≤ s64 6 ∧ s64 10 ≤ 10 ∧ (3 : Word) ∉ [0, 1, 2] := by
  decide +kernel

theorem witness_MkcfgConstructsConfig : loaded.regs.textLen.toNat ≤ 256 ∧ b32decode loaded.textOperand = some k20 ∧
    0 < s64 loaded.regs.step ∧ 6 ≤ s64 loaded.regs.digits ∧ s64 loaded.regs.digits ≤ 10 ∧
    loaded.regs.alg ∈ [0, 1, 2] := by decide +kernel

theorem witness_B32decDecodesText :
    256 < ({ State.reset with regs := { Regs.reset with textLen := 257 } } : State).regs.textLen.toNat ∧
      (({ State.reset with regs := { Regs.reset with textLen := 256 } } : State).regs.textLen.toNat ≤ 256 ∧
        b32decode ({ State.reset with regs := { Regs.reset with textLen := 256 } } : State).textOperand = none) ∧
      loaded.regs.textLen.toNat ≤ 256 ∧ b32decode loaded.textOperand = some k20 := by decide +kernel

theorem witness_B32encEncodesKey :
    160 < ({ State.reset with regs := { Regs.reset with keyLen := 161 } } : State).regs.keyLen.toNat ∧
      ({ State.reset with regs := { Regs.reset with keyLen := 160 } } : State).regs.keyLen.toNat ≤ 160 := by decide

theorem witness_Base32Lengths : b32decode s20 = some k20 ∧ s20.length ≤ 256 ∧
    (List.replicate 160 (0 : Byte)).length ≤ 160 := by decide +kernel

theorem witness_Base32ImpossibleLengths : ∀ t ∈ [[0x4D], [0x4D, 0x5A, 0x58], [0x4D, 0x5A, 0x58, 0x57, 0x36, 0x59]],
    padChar ∉ t ∧ t.length % 8 ∈ [1, 3, 6] := by decide

theorem witness_ClockDividesWithFloor :
    s64 ({ State.reset with regs := { Regs.reset with step := 0 } } : State).regs.step ≤ 0 ∧
      0 < s64 ({ State.reset with regs := { Regs.reset with step := 1 } } : State).regs.step := by decide

theorem witness_ClockPairIsExact : ∃ t,
    exec (.clock false) { State.reset with regs := { Regs.reset with ts := -31 } } = .next t ∧
      decide (t.status.err = 0) = true := of_answer (by decide +kernel)

theorem witness_CounterHeldForOneStep : (0 : Int) < 1 ∧ (-31 : Int) ≤ -30 := by decide

theorem witness_TimeRemainingInStep : (0 : Int) < 1 := by decide

/-- Messages on both sides of a second block, for both paddings. -/
theorem witness_DigestSizes : ∀ l ∈ [0, 55, 56, 63, 64, 111, 112, 127, 128],
    8 * (List.replicate l (0 : Byte)).length < 2 ^ 64 ∧ 8 * (List.replicate l (0 : Byte)).length < 2 ^ 128 := by
  decide +kernel

theorem witness_TruncationOfDigest : ∀ x ∈ [(List.replicate 20 (0x00 : Byte), 0), (List.replicate 20 0xFF, 15)],
    20 ≤ x.1.length ∧ x.2 = (x.1.getD (x.1.length - 1) 0).toNat % 16 := by decide

theorem witness_CounterRangeChecked : ∃ n : Nat, (2 ^ 64 - 1 : Int) = n ∧ n < 2 ^ 64 := ⟨2 ^ 64 - 1, by decide, by decide⟩

theorem witness_HotpWritesCode : State.reset.status.cfgValid = false ∧ (configured 59).configInv ∧
    (configured 59).status.cfgValid = true ∧ Alg.ofCode (configured 59).regs.alg = some .sha1 ∧
    (configured 59).status.cneg = false ∧
    ({ configured 59 with status := { (configured 59).status with cneg := true } } : State).configInv ∧
    ({ configured 59 with status := { (configured 59).status with cneg := true } } : State).status.cneg = true :=
  ⟨by decide, configured_inv, by decide, by decide, by decide, fun _ => by decide +kernel, by decide⟩

theorem witness_HotpDependsOnOperandsOnly : ∃ t, exec .hotp (configured 59) = .next t ∧
    decide (t.status.err = 0) = true := of_answer (by decide +kernel)

theorem witness_GenWritesResult : State.reset.status.cfgValid = false ∧ (configured 59).configInv ∧
    (configured 59).status.cfgValid = true ∧ Alg.ofCode (configured 59).regs.alg = some .sha1 ∧
    s64 (configured 59).regs.t0 ≤ s64 ((configured 59).timestamp false).1 ∧
    (configured (-1)).configInv ∧
    s64 ((configured (-1)).timestamp false).1 < s64 (configured (-1)).regs.t0 :=
  ⟨by decide, configured_inv, by decide, by decide, by decide, fun _ => by decide +kernel, by decide⟩

/-- The latest counter, `2^64 - 1` (2.3), with a window that reaches one further. -/
def latest : State :=
  { candidate 0x7FFFFFFFFFFFFFFF 1 with
    regs := { (candidate 0x7FFFFFFFFFFFFFFF 1).regs with t0 := 0x8000000000000000, step := 1 } }

theorem witness_VerifyChecksInOrder : State.reset.status.cfgValid = false ∧ (candidate 29 1).status.cfgValid = true ∧
    16 < ({ candidate 29 1 with regs := { (candidate 29 1).regs with candLen := 17 } } : State).regs.candLen.toNat ∧
    (candidate 29 1).regs.candLen.toNat ≤ 16 ∧ s64 (candidate 29 (-1)).regs.window < 0 ∧
    0 ≤ s64 (candidate 29 1).regs.window ∧ (candidate 29 1).configInv ∧
    counterOf (s64 ((candidate 29 1).timestamp false).1) (s64 (candidate 29 1).regs.t0) (s64 (candidate 29 1).regs.step) -
      s64 (candidate 29 1).regs.window < 0 ∧
    latest.status.cfgValid = true ∧ latest.regs.candLen.toNat ≤ 16 ∧ 0 ≤ s64 latest.regs.window ∧ latest.configInv ∧
    2 ^ 64 ≤ counterOf (s64 (latest.timestamp false).1) (s64 latest.regs.t0) (s64 latest.regs.step) +
      s64 latest.regs.window :=
  ⟨by decide, by decide, by decide, by decide, by decide, by decide, fun _ => by decide +kernel, by decide +kernel,
    by decide, by decide, by decide, fun _ => by decide +kernel, by decide +kernel⟩

theorem witness_VerifyMatchesWindow : (candidate 89 1).configInv ∧ (candidate 89 1).status.cfgValid = true ∧
    Alg.ofCode (candidate 89 1).regs.alg = some .sha1 ∧ (candidate 89 1).regs.candLen.toNat ≤ 16 ∧
    0 ≤ s64 (candidate 89 1).regs.window ∧
    (2 : Int) = counterOf (s64 ((candidate 89 1).timestamp false).1) (s64 (candidate 89 1).regs.t0)
      (s64 (candidate 89 1).regs.step) ∧
    0 ≤ 2 - s64 (candidate 89 1).regs.window ∧ 2 + s64 (candidate 89 1).regs.window < 2 ^ 64 :=
  ⟨fun _ => by decide +kernel, by decide, by decide, by decide, by decide, by decide +kernel, by decide, by decide⟩

theorem witness_CandidateComparison : (configured 59).configInv ∧ (configured 59).status.cfgValid = true :=
  ⟨configured_inv, by decide⟩

/-- The host has copied the code of `g` to `CAND`, with the given window, and the timestamp in `TS` and on the clock
(R207, R208). -/
def copied (g : State) (ts window : Word) : State :=
  { g with
    regs := { g.regs with ts := ts, window := window, candLen := g.regs.digits }
    mem := g.mem.write Buf.cand.base (g.buf .codestr 8)
    env := { g.env with clock := [ts] } }

theorem copied_key (g : State) (ts window : Word) (i : Nat) :
    (copied g ts window).bufByte .key i = g.bufByte .key i :=
  Memory.read_write_outside _ (.inr (by simp [State.buf, Buf.base]; omega))

theorem copied_cand (g : State) (ts window : Word) {j : Nat} (hj : j < 8) :
    (copied g ts window).bufByte .cand j = g.bufByte .codestr j := by
  rw [State.bufByte, copied, Memory.read_write_inside _ (by simpa [State.buf] using hj), State.buf,
    Memory.bytes_getD _ hj, State.bufByte]

theorem witness_GenerateThenVerifyMatches : ∃ g, exec (.gen false) (configured 59) = .next g ∧ g.status.err = 0 ∧
    (configured 59).status.cfgValid = true ∧ (copied g g.regs.ts 0).status.cfgValid = true ∧
    (∀ i < Buf.key.cap, (copied g g.regs.ts 0).bufByte .key i = g.bufByte .key i) ∧
    (copied g g.regs.ts 0).regs.window = 0 ∧
    ∀ j : Nat, (j : Int) < s64 g.regs.digits → (copied g g.regs.ts 0).bufByte .cand j = g.bufByte .codestr j := by
  obtain ⟨g, hg, h⟩ := of_answer (o := exec (.gen false) (configured 59))
    (P := fun g => decide (g.status.err = 0 ∧ g.status.cfgValid = true ∧ s64 g.regs.digits = 8)) (by decide +kernel)
  obtain ⟨h₁, h₂, h₃⟩ := of_decide_eq_true h
  exact ⟨g, hg, h₁, by decide, h₂, fun i _ => copied_key g _ _ i, rfl, fun j hj => copied_cand g _ _ (by omega)⟩

/-- The configuration at timestamp 59, with the wall clock at 59 too. -/
def configuredClock : State := { configured 59 with env := { Env.reset with clock := [59] } }

/-- V5: the code of timestamp 59, verified at 89 with window 1, for both `W` bits of both commands. -/
theorem witness_WindowBoundaryMatches : ∀ w w' : Bool, ∃ g t,
    exec (.gen w) configuredClock = .next g ∧ g.status.err = 0 ∧
    configuredClock.status.cfgValid = true ∧ (copied g 89 1).status.cfgValid = true ∧
    (∀ i < Buf.key.cap, (copied g 89 1).bufByte .key i = g.bufByte .key i) ∧
    s64 ((copied g 89 1).timestamp w').1 =
      s64 (configuredClock.timestamp w).1 + s64 (copied g 89 1).regs.window * s64 g.regs.step ∧
    (∀ j : Nat, (j : Int) < s64 g.regs.digits → (copied g 89 1).bufByte .cand j = g.bufByte .codestr j) ∧
    exec (.verify w') (copied g 89 1) = .next t ∧ t.status.err = 0 := by
  intro w w'
  obtain ⟨g, hg, h⟩ := of_answer (o := exec (.gen w) configuredClock)
    (P := fun g => decide (g.status.err = 0 ∧ g.status.cfgValid = true ∧ s64 g.regs.digits = 8 ∧
      s64 ((copied g 89 1).timestamp w').1 =
        s64 (configuredClock.timestamp w).1 + s64 (copied g 89 1).regs.window * s64 g.regs.step ∧
      (answer (exec (.verify w') (copied g 89 1))).any (fun t => decide (t.status.err = 0)) = true))
    (by cases w <;> cases w' <;> decide +kernel)
  obtain ⟨h₁, h₂, h₃, h₄, h₅⟩ := of_decide_eq_true h
  obtain ⟨t, ht, he⟩ := of_answer h₅
  exact ⟨g, t, hg, h₁, by decide, h₂, fun i _ => copied_key g _ _ i, h₄, fun j hj => copied_cand g _ _ (by omega), ht,
    of_decide_eq_true he⟩

theorem witness_UndefinedConfigFaults : (configured 59).status.cfgValid = true ∧
    s64 ({ configured 59 with regs := { (configured 59).regs with step := 0 } } : State).regs.step ≤ 0 ∧
    (configured 59).regs.candLen.toNat ≤ 16 ∧ 0 ≤ s64 (configured 59).regs.window ∧ 0 < s64 (configured 59).regs.step ∧
    Alg.ofCode 3 = none ∧ s64 5 < 6 ∧ 10 < s64 11 ∧ 160 < (161 : Word).toNat := by decide

theorem witness_RandStoresSecret : s64 (seeded 0 .unavailable).regs.len < 1 ∧
    160 < s64 (seeded 161 .unavailable).regs.len ∧
    ∀ n ∈ [1, 160], 1 ≤ s64 (seeded (BitVec.ofNat 64 n) (.bytes (List.replicate n 7))).regs.len ∧
      s64 (seeded (BitVec.ofNat 64 n) (.bytes (List.replicate n 7))).regs.len ≤ 160 ∧
      ((seeded (BitVec.ofNat 64 n) (.bytes (List.replicate n 7))).drawEntropy n).1 = some (List.replicate n 7) ∧
      ((seeded (BitVec.ofNat 64 n) .unavailable).drawEntropy n).1 = none := by
  decide +kernel

theorem witness_GensecPolicy : s64 (seeded 15 .unavailable).regs.len < 16 ∧ 64 < s64 (seeded 65 .unavailable).regs.len ∧
    ∀ n ∈ [16, 64], 16 ≤ s64 (seeded (BitVec.ofNat 64 n) (.bytes (List.replicate n 7))).regs.len ∧
      s64 (seeded (BitVec.ofNat 64 n) (.bytes (List.replicate n 7))).regs.len ≤ 64 ∧
      ((seeded (BitVec.ofNat 64 n) (.bytes (List.replicate n 7))).drawEntropy n).1 = some (List.replicate n 7) := by
  decide +kernel

theorem witness_EntropyFailureIsFatal : ∀ n ∈ [16, 64],
    ((seeded (BitVec.ofNat 64 n) .unavailable).drawEntropy
        (s64 (seeded (BitVec.ofNat 64 n) .unavailable).regs.len).toNat).1 = none ∧
      16 ≤ s64 (seeded (BitVec.ofNat 64 n) .unavailable).regs.len ∧
      s64 (seeded (BitVec.ofNat 64 n) .unavailable).regs.len ≤ 64 := by decide +kernel

theorem witness_EveryCommandCompletes : (configured 59).configInv := configured_inv

theorem witness_ErrorsWriteNothingElse :
    (∃ t, exec .hotp State.reset = .next t ∧ decide (t.status.err ≠ 0 ∧ t.status.err ≠ 8) = true) ∧
      ∃ t, exec (.verify true) State.reset = .next t ∧ decide (t.status.err ≠ 0 ∧ t.status.err ≠ 8) = true :=
  ⟨of_answer (by decide +kernel), of_answer (by decide +kernel)⟩

theorem witness_FatalLeftOnlyByReset : State.reset.enterFatal.status.fatal = true ∧
    State.reset.enterFatal.status.busy = false ∧ ¬State.reset.enterFatal.resetNext ∧
    ∃ t, step State.reset.enterFatal = .next t :=
  ⟨rfl, rfl, (by rintro ⟨ts, h⟩; cases h), _, rfl⟩

theorem witness_FatalSetOnlyByEntropy : ((seeded 5 .unavailable).withFetchWord 64 0x014).status.fatal = false ∧
    ∃ t, step ((seeded 5 .unavailable).withFetchWord 64 0x014) = .next t ∧ decide (t.status.fatal = true) = true :=
  ⟨by decide, of_answer (by decide +kernel)⟩

theorem witness_MatchWrittenOnlyByVerify : ∃ t, step ((candidate 89 1).withFetchWord 64 0x003) = .next t ∧
    decide (t.status.matched ≠ ((candidate 89 1).withFetchWord 64 0x003).status.matched) = true :=
  of_answer (by decide +kernel)

theorem witness_ConfigValidOnlyByMkcfg : (loaded.withFetchWord 64 0x001).status.cfgValid = false ∧
    ∃ t, step (loaded.withFetchWord 64 0x001) = .next t ∧ decide (t.status.cfgValid = true) = true :=
  ⟨by decide, of_answer (by decide +kernel)⟩

theorem witness_ConfigBearingWritesClear : ∃ t, step ((configured 59).withFetchWord 64 0x012) = .next t ∧
    decide (t.status.cfgValid = true) = true := of_answer (by decide +kernel)

theorem configured_all : (configured 59).inv :=
  ⟨by decide +kernel, configured_inv, .inl (by decide +kernel), by unfold State.rangeInv; decide +kernel⟩

/-- The premises of the four invariants and of `MachineNeverFaults`, with a step that answers a next state. -/
theorem witness_StepKeepsEveryInvariant : (configured 59).inv ∧ ∃ t, step (configured 59) = .next t :=
  ⟨configured_all, _, rfl⟩

end Sys2Proof.Tests
end

section
/-! PROOFS. What one step does to the block, said once: the effects of a completion as an inductive relation, and the
four forms of a step. Every rule about all steps is derived from these. -/

namespace Sys2Proof.Machine

variable {s t : State} {i : Option Instr} {w : Bool}

/-! ## The block beside its environment -/

/-- The same block with other contents outside it (R15, R44). -/
def State.withEnv (s : State) (e : Env) : State := { s with env := e }

@[simp] theorem State.withEnv_status (e : Env) : (s.withEnv e).status = s.status := rfl
@[simp] theorem State.withEnv_regs (e : Env) : (s.withEnv e).regs = s.regs := rfl
@[simp] theorem State.withEnv_mem (e : Env) : (s.withEnv e).mem = s.mem := rfl
@[simp] theorem State.withEnv_pend (e : Env) : (s.withEnv e).pend = s.pend := rfl

/-- Two states with the same block differ in the environment alone. -/
theorem State.sameBlock.eq_withEnv (h : s.sameBlock t) : t = s.withEnv t.env := by
  obtain ⟨hs, hr, hm, hp⟩ := h
  simp only [State.withEnv, ← hs, ← hr, ← hm, ← hp]

/-- R38: a sample of the clock touches nothing of the block. -/
theorem State.sameBlock_timestamp (w : Bool) (s : State) : s.sameBlock (s.timestamp w).2 :=
  ⟨s.timestamp_status w, s.timestamp_regs w, s.timestamp_mem w, s.timestamp_pend w⟩

/-- R39: a draw of entropy touches nothing of the block. -/
theorem State.sameBlock_drawEntropy (s : State) (n : Nat) : s.sameBlock (s.drawEntropy n).2 :=
  ⟨s.drawEntropy_status n, s.drawEntropy_regs n, s.drawEntropy_mem n, s.drawEntropy_pend n⟩

/-! ## Completion of a command -/

/-- R145, R201: what `CLOCK` and `GEN` write for the timestamp `ts`: `TS`, the counter and the time remaining. -/
def State.setTime (s : State) (ts : Word) : State :=
  ((s.setReg .ts ts).setCounter (counterOf (s64 ts) (s64 s.regs.t0) (s64 s.regs.step))).setReg .rem
    (u64 (timeRemaining (s64 ts) (s64 s.regs.t0) (s64 s.regs.step)))

@[simp] theorem State.setTime_status (ts : Word) : (s.setTime ts).status =
    { s.status with cneg := decide (counterOf (s64 ts) (s64 s.regs.t0) (s64 s.regs.step) < 0) } := rfl
@[simp] theorem State.setTime_regs (ts : Word) : (s.setTime ts).regs =
    { s.regs with
      ts := ts
      ctr := u64 (counterOf (s64 ts) (s64 s.regs.t0) (s64 s.regs.step))
      rem := u64 (timeRemaining (s64 ts) (s64 s.regs.t0) (s64 s.regs.step)) } := rfl
@[simp] theorem State.setTime_mem (ts : Word) : (s.setTime ts).mem = s.mem := rfl

/-- Everything the completion of `PEND` can write to the block of `s`, where `i` is what `PEND` decodes to and draws are
already taken: an error of R241, the fatal entry of R243, or the success of a command. -/
inductive Completes (s : State) : Option Instr → State → Prop
  | raises {i : Option Instr} (k : ErrorKind) : Completes s i (s.raise k)
  | verifyRaises {w : Bool} (k : ErrorKind) : Completes s (some (.verify w)) (s.raiseVerify k)
  | entersFatal {i : Option Instr} (hi : i = some .rand ∨ i = some .gensec) : Completes s i s.enterFatal
  | configures {r : List Byte} (htext : s.regs.textLen.toNat ≤ Config.textCap)
      (hdec : b32decode s.textOperand = some r) (hstep : 0 < s64 s.regs.step) (h₆ : 6 ≤ s64 s.regs.digits)
      (h₁₀ : s64 s.regs.digits ≤ 10) (halg : (Alg.ofCode s.regs.alg).isSome = true) :
      Completes s (some .mkcfg) ((s.storeKey r).setCfgValid).succeed
  | storesKey (r : List Byte) : Completes s (some .b32dec) (s.storeKey r).succeed
  | storesText (b : List Byte) : Completes s (some .b32enc) (s.storeText b).succeed
  | storesSecret {i : Option Instr} (hi : i = some .rand ∨ i = some .gensec) (b : List Byte) :
      Completes s i ((s.storeKey b).storeText (b32encode b)).succeed
  | clocks {w : Bool} (ts : Word) (hstep : 0 < s64 s.regs.step) : Completes s (some (.clock w)) (s.setTime ts).succeed
  | codes {x : HotpArgs} (c : Nat) (hx : 6 ≤ x.digits ∧ x.digits ≤ 10) :
      Completes s (some .hotp) (s.setCode (otpNumber x c) (otpCode x c)).succeed
  | generates {w : Bool} {x : HotpArgs} (ts : Word) (c : Nat) (hstep : 0 < s64 s.regs.step)
      (hx : 6 ≤ x.digits ∧ x.digits ≤ 10) :
      Completes s (some (.gen w)) ((s.setTime ts).setCode (otpNumber x c) (otpCode x c)).succeed
  | verifies {w : Bool} (ts : Word) (m : Bool) : Completes s (some (.verify w)) ((s.setReg .ts ts).setMatch m).succeed

/-- R155: the arguments of `hotp` have 6 to 10 digits. -/
theorem State.hotpArgs_digits {x : HotpArgs} (h : s.hotpArgs = some x) : 6 ≤ x.digits ∧ x.digits ≤ 10 := by
  obtain ⟨a, -, rfl, h₆, h₁₀, -⟩ := s.hotpArgs_cases h
  simp only [State.configArgs]
  omega

/-- Each command's answer is one of the effects, on the block its draws left as it was. -/
theorem completes_of_exec {i : Instr} (h : exec i s = .next t) : ∃ e, Completes (s.withEnv e) (some i) t := by
  have clock : ∀ w, (s.timestamp w).2 = s.withEnv (s.timestamp w).2.env := fun w =>
    (s.sameBlock_timestamp w).eq_withEnv
  have secret : ∀ n, some i = some .rand ∨ some i = some .gensec →
      ∃ e, Completes (s.withEnv e) (some i) (s.generateSecret n) := fun n hi => by
    have draw := (s.sameBlock_drawEntropy n).eq_withEnv
    obtain ⟨-, hg⟩ | ⟨b, -, -, hg⟩ := generateSecret_cases s n <;> rw [hg, draw]
    · exact ⟨_, .entersFatal hi⟩
    · exact ⟨_, .storesSecret hi b⟩
  cases i with
  | mkcfg =>
    obtain ⟨k, -, rfl⟩ | ⟨r, htext, hdec, hstep, h₆, h₁₀, halg, rfl⟩ := execMkcfg_cases h
    · exact ⟨s.env, .raises k⟩
    · exact ⟨s.env, .configures htext hdec hstep h₆ h₁₀ halg⟩
  | b32dec =>
    obtain ⟨k, -, rfl⟩ | ⟨r, -, -, rfl⟩ := execB32dec_cases h
    · exact ⟨s.env, .raises k⟩
    · exact ⟨s.env, .storesKey r⟩
  | b32enc =>
    obtain ⟨k, -, rfl⟩ | rfl := execB32enc_cases h
    · exact ⟨s.env, .raises k⟩
    · exact ⟨s.env, .storesText _⟩
  | rand =>
    obtain rfl | ⟨-, -, rfl⟩ := execRand_cases h
    · exact ⟨s.env, .raises _⟩
    · exact secret _ (.inl rfl)
  | gensec =>
    obtain rfl | ⟨-, -, rfl⟩ := execGensec_cases h
    · exact ⟨s.env, .raises _⟩
    · exact secret _ (.inr rfl)
  | clock w =>
    obtain rfl | ⟨hstep, rfl⟩ := execClock_cases h
    · exact ⟨s.env, .raises _⟩
    · rw [clock]; exact ⟨_, .clocks (s.timestamp w).1 hstep⟩
  | hotp =>
    obtain ⟨k, -, rfl⟩ | ⟨x, c, -, hx, -, -, rfl⟩ := execHotp_cases h
    · exact ⟨s.env, .raises k⟩
    · exact ⟨s.env, .codes c (State.hotpArgs_digits hx)⟩
  | gen w =>
    obtain rfl | ⟨-, rfl⟩ | ⟨x, c, -, hstep, hx, hc, -, rfl⟩ := execGen_cases h
    · exact ⟨s.env, .raises _⟩
    · rw [clock]; exact ⟨_, .raises _⟩
    · rw [clock, ← hc]; exact ⟨_, .generates (s.timestamp w).1 c hstep (State.hotpArgs_digits hx)⟩
  | verify w =>
    obtain ⟨k, -, rfl | rfl⟩ | ⟨x, m, -, -, rfl⟩ := execVerify_cases h
    · exact ⟨s.env, .verifyRaises k⟩
    · rw [clock]; exact ⟨_, .verifyRaises k⟩
    · rw [clock]; exact ⟨_, .verifies (s.timestamp w).1 m⟩

theorem completes_of_complete (h : complete s = .next t) : ∃ e, Completes (s.withEnv e) (decode s.pend) t := by
  obtain ⟨-, rfl⟩ | ⟨i, hi, hx⟩ := complete_cases h
  · exact ⟨s.env, .raises _⟩
  · rw [hi]; exact completes_of_exec hx

/-! ## Steps -/

/-- The four forms of a step, on the block: the reset input, nothing, a completion, or a host write outside a busy
interval. -/
theorem step_effect (h : step s = .next t) :
    (s.resetNext ∧ ∃ e, t = State.reset.withEnv e) ∨
      (∃ e, t = s.withEnv e) ∨
      (s.engineNext ∧ ∃ e, Completes (s.withEnv e) (decode s.pend) t) ∨
      ∃ e a v, a % 8 = 0 ∧ s.status.busy = false ∧ t = (s.withEnv e).portWrite v (portPlace a) := by
  obtain ⟨hr, ts, rfl⟩ | ⟨ts, -, rfl⟩ | ⟨he, ts, hc⟩ | ⟨ts, a, n, hh⟩ | ⟨ts, a, n, v, hh⟩ := step_cases h
  · exact .inl ⟨hr, _, rfl⟩
  · exact .inr (.inl ⟨_, rfl⟩)
  · exact .inr (.inr (.inl ⟨he, completes_of_complete (s := s.withSchedule ts) hc⟩))
  · obtain ⟨-, ⟨rfl, -⟩ | ⟨v, rfl⟩⟩ := hostRead_cases hh <;> exact .inr (.inl ⟨_, rfl⟩)
  · obtain ⟨hp, ⟨-, rfl⟩ | ⟨hb, rfl⟩⟩ := hostWrite_cases hh
    · exact .inr (.inl ⟨_, rfl⟩)
    · exact .inr (.inr (.inr ⟨_, a, v, (portAccess_iff.mp hp).1, hb, rfl⟩))

/-- A property of the block is kept by every step when it holds at reset, does not see the environment, and is kept by
each effect of a completion and by each host write. -/
theorem step_preserves {P : State → Prop} (henv : ∀ s e, P s → P (s.withEnv e)) (hreset : P State.reset)
    (hcomplete : ∀ {s t i}, P s → Completes s i t → P t)
    (hwrite : ∀ {s a v}, P s → a % 8 = 0 → P (s.portWrite v (portPlace a)))
    (hs : P s) (h : step s = .next t) : P t := by
  obtain ⟨-, e, rfl⟩ | ⟨e, rfl⟩ | ⟨-, e, hc⟩ | ⟨e, a, v, h8, -, rfl⟩ := step_effect h
  · exact henv _ e hreset
  · exact henv _ e hs
  · exact hcomplete (henv _ e hs) hc
  · exact hwrite (henv _ e hs) h8

end Sys2Proof.Machine
end

section
/-! PROOFS. The configuration behind `CFG_VALID` (R29, R30): every step either keeps it, clears `CFG_VALID`, or is a
successful `MKCFG`, which constructs it. -/

namespace Sys2Proof.Machine

variable {s t : State} {i : Option Instr}

/-- R30: if `t` still has `CFG_VALID = 1`, so had `s`, and no config-bearing register or buffer changed. -/
def State.keepsConfig (s t : State) : Prop :=
  t.status.cfgValid = true → s.status.cfgValid = true ∧ s.sameConfigBearing t ∧ s.sameKey t

theorem keepsConfig_of_cleared (h : t.status.cfgValid = false) : s.keepsConfig t :=
  fun ht => absurd ht (by simp [h])

/-- `TEXT` and `KEY` lie above the other buffers, so a step that writes only below them, and no config-bearing register,
keeps the configuration. -/
theorem keepsConfig_of_frame (hs : t.status.cfgValid = s.status.cfgValid)
    (hr : ∀ r : Reg, r.configBearing = true → t.regs.get r = s.regs.get r)
    (hm : ∀ a, Buf.text.base ≤ a → t.mem.read a = s.mem.read a) : s.keepsConfig t :=
  fun ht => ⟨hs ▸ ht,
    ⟨hr .t0 rfl, hr .step rfl, hr .digits rfl, hr .alg rfl, hr .textLen rfl, fun _ _ => hm _ (by omega)⟩,
    hr .keyLen rfl, fun _ _ => hm _ (by simp only [Buf.base]; omega)⟩

/-- A write of another register is no write of a config-bearing one. -/
theorem Regs.get_set_configBearing (x : Regs) {n : Reg} (v : Word) (hn : n.configBearing = false) (r : Reg)
    (hr : r.configBearing = true) : (x.set n v).get r = x.get r :=
  Regs.get_set_other _ _ _ _ (by rintro rfl; simp [hn] at hr)

theorem setTime_get_configBearing (ts : Word) (r : Reg) (hr : r.configBearing = true) :
    (s.setTime ts).regs.get r = s.regs.get r := by
  rw [show (s.setTime ts).regs = ((s.regs.set .ts ts).set .ctr _).set .rem _ from rfl]
  iterate 3 rw [Regs.get_set_configBearing _ _ rfl r hr]

theorem setCode_get_configBearing (n : Nat) (code : List Byte) (r : Reg) (hr : r.configBearing = true) :
    (s.setCode n code).regs.get r = s.regs.get r :=
  Regs.get_set_configBearing (n := .code) _ _ rfl r hr

theorem setCode_read_above (n : Nat) (code : List Byte) {a : Nat} (ha : Buf.text.base ≤ a) :
    (s.setCode n code).mem.read a = s.mem.read a :=
  State.read_setBuf_outside (s.setReg .code (BitVec.ofNat 64 n)) (b := .codestr)
    (.inr (by simp only [Buf.base, Buf.cap, Config.codestrCap] at *; omega))

/-- R29: a kept configuration is still a constructed one. -/
theorem configInv_of_keepsConfig (hi : s.configInv) (h : s.keepsConfig t) : t.configInv := by
  intro ht
  obtain ⟨hs, ⟨-, hstep, hdigits, halg, hlen, htext⟩, hkeyLen, hkey⟩ := h ht
  obtain ⟨i₁, i₂, i₃, i₄, i₅, i₆, i₇⟩ := hi hs
  have text : t.textOperand = s.textOperand := by
    rw [State.textOperand, State.textOperand, hlen]
    exact Memory.bytes_congr fun j hj => htext j (lt_of_lt_of_le hj i₅)
  have key : t.keyOperand = s.keyOperand := by
    rw [State.keyOperand, State.keyOperand, hkeyLen]
    exact Memory.bytes_congr fun j hj => hkey j (lt_of_lt_of_le hj i₆)
  rw [hstep, hdigits, halg, hlen, hkeyLen, text, key]
  exact ⟨i₁, i₂, i₃, i₄, i₅, i₆, i₇⟩

/-! ## `MKCFG` -/

/-- Storing a key leaves the bytes below `KEY`, and so those of `TEXT`. -/
theorem State.bufByte_storeKey_text (r : List Byte) {j : Nat} (hj : j < Buf.text.cap) :
    (s.storeKey r).bufByte .text j = s.bufByte .text j :=
  State.read_setBuf_outside s (b := .key) (.inl (by simp only [Buf.base, Buf.cap, Config.textCap] at *; omega))

/-- R33, R126: a stored key reads back as the key operand. -/
theorem State.keyOperand_storeKey {r : List Byte} (hr : r.length ≤ Config.keyCap) :
    (s.storeKey r).keyOperand = r := by
  have hlen : (s.storeKey r).regs.keyLen.toNat = r.length := by
    simp only [Config.keyCap] at hr
    rw [State.storeKey_regs, BitVec.toNat_ofNat, Nat.mod_eq_of_lt (by omega)]
  refine List.ext_getElem (by rw [State.keyOperand, State.buf, Memory.bytes_length, hlen]) fun j _ hj => ?_
  have := s.bufByte_setBuf_same (b := .key) (t := r) (lt_of_lt_of_le hj hr)
  simpa [State.keyOperand, State.buf, Memory.bytes, State.bufByte, hj] using this

/-- R128: a text that fits `TEXT` decodes to a key that fits `KEY`. -/
theorem b32decode_fits_key {x r : List Byte} (h : b32decode x = some r) (hx : x.length ≤ Config.textCap) :
    r.length ≤ Config.keyCap := by
  have := b32decode_length_le h
  simp only [Config.textCap, Config.keyCap] at *
  omega

/-- R110: `MKCFG` constructs the configuration that R29 asks for. -/
theorem storeKey_configInv {r : List Byte} (htext : s.regs.textLen.toNat ≤ Config.textCap)
    (hdec : b32decode s.textOperand = some r) (hstep : 0 < s64 s.regs.step) (h₆ : 6 ≤ s64 s.regs.digits)
    (h₁₀ : s64 s.regs.digits ≤ 10) (halg : (Alg.ofCode s.regs.alg).isSome = true) :
    (((s.storeKey r).setCfgValid).succeed).configInv := by
  have hr : r.length ≤ Config.keyCap := b32decode_fits_key hdec (by simpa [State.textOperand, State.buf])
  have text : (s.storeKey r).textOperand = s.textOperand :=
    Memory.bytes_congr fun j hj => s.bufByte_storeKey_text r (lt_of_lt_of_le hj htext)
  intro _
  refine ⟨hstep, h₆, h₁₀, halg, htext, ?_, ?_⟩
  · simp only [State.succeed_regs, State.setCfgValid_regs, State.storeKey_regs, BitVec.toNat_ofNat]
    exact (Nat.mod_le _ _).trans hr
  · exact (congrArg b32decode text).trans (hdec.trans (congrArg some (State.keyOperand_storeKey hr).symm))

/-! ## Completions, host writes, steps -/

/-- What `MKCFG` leaves when it succeeds. -/
def State.constructsConfig (s t : State) : Prop :=
  t.status.err = 0 ∧ s.sameConfigBearing t ∧ t.configInv

theorem Completes.config (h : Completes s i t) :
    s.keepsConfig t ∨ (i = some .mkcfg ∧ s.constructsConfig t) := by
  cases h with
  | raises k => exact .inl (keepsConfig_of_frame rfl (fun _ _ => rfl) fun _ _ => rfl)
  | verifyRaises k => exact .inl (keepsConfig_of_frame rfl (fun _ _ => rfl) fun _ _ => rfl)
  | entersFatal hi => exact .inl (keepsConfig_of_frame rfl (fun _ _ => rfl) fun _ _ => rfl)
  | configures htext hdec hstep h₆ h₁₀ halg =>
    exact .inr ⟨rfl, rfl, ⟨rfl, rfl, rfl, rfl, rfl, fun _ hj => s.bufByte_storeKey_text _ hj⟩,
      storeKey_configInv htext hdec hstep h₆ h₁₀ halg⟩
  | storesKey r => exact .inl (keepsConfig_of_cleared rfl)
  | storesText b => exact .inl (keepsConfig_of_cleared rfl)
  | storesSecret hi b => exact .inl (keepsConfig_of_cleared rfl)
  | clocks ts _ => exact .inl (keepsConfig_of_frame rfl (setTime_get_configBearing ts) fun _ _ => rfl)
  | @codes x c _ =>
    exact .inl (keepsConfig_of_frame rfl (setCode_get_configBearing _ (otpCode x c)) fun _ ha => setCode_read_above _ _ ha)
  | @generates w x ts c _ _ =>
    exact .inl (keepsConfig_of_frame rfl
      (fun r hr => (setCode_get_configBearing _ (otpCode x c) r hr).trans (setTime_get_configBearing ts r hr))
      fun _ ha => setCode_read_above (s := s.setTime ts) _ _ ha)
  | verifies ts m =>
    exact .inl (keepsConfig_of_frame rfl (Regs.get_set_configBearing (n := .ts) _ _ rfl) fun _ _ => rfl)

/-- R30, R69: a host write to config-bearing state clears `CFG_VALID`. -/
theorem portWrite_keepsConfig (s : State) (v : Word) {a : Nat} (h8 : a % 8 = 0) :
    s.keepsConfig (s.portWrite v (portPlace a)) := by
  obtain e | ⟨-, e⟩ | ⟨r, -, e⟩ | e | ⟨r, hr, e⟩ | ⟨b, k, hb, hk, e⟩ := portWrite_cases s v h8 <;> rw [e]
  · exact keepsConfig_of_frame rfl (fun _ _ => rfl) fun _ _ => rfl
  · exact keepsConfig_of_frame rfl (fun _ _ => rfl) fun _ _ => rfl
  · exact keepsConfig_of_cleared rfl
  · exact keepsConfig_of_frame rfl (Regs.get_set_configBearing (n := .ctr) _ _ rfl) fun _ _ => rfl
  · have hn : r.configBearing = false := (by decide : ∀ r ∈ [Reg.ts, .window, .len, .candLen], r.configBearing = false) r hr
    exact keepsConfig_of_frame rfl (Regs.get_set_configBearing _ _ hn) fun _ _ => rfl
  · cases b with
    | codestr => exact absurd rfl hb
    | text => exact keepsConfig_of_cleared (by simp [Buf.configBearing])
    | key => exact keepsConfig_of_cleared (by simp [Buf.configBearing])
    | cand =>
      refine keepsConfig_of_frame (by simp [Buf.configBearing]) (fun _ _ => rfl) fun a ha => ?_
      simp only [Buf.base, Buf.cap, Config.candCap] at hk ha
      exact Memory.read_write_outside _ (.inr (by simp only [Buf.base, leBytes_length]; omega))

/-- R30, R111: a step keeps the configuration, or is a successful `MKCFG`. -/
theorem step_config (h : step s = .next t) :
    s.keepsConfig t ∨ (s.engineNext ∧ decode s.pend = some .mkcfg ∧ s.constructsConfig t) := by
  obtain ⟨-, e, rfl⟩ | ⟨e, rfl⟩ | ⟨he, e, hc⟩ | ⟨e, a, v, h8, -, rfl⟩ := step_effect h
  · exact .inl (keepsConfig_of_cleared rfl)
  · exact .inl (keepsConfig_of_frame rfl (fun _ _ => rfl) fun _ _ => rfl)
  · obtain hk | ⟨hi, hm⟩ := hc.config
    · exact .inl hk
    · exact .inr ⟨he, hi, hm⟩
  · exact .inl (portWrite_keepsConfig (s.withEnv e) v h8)

theorem step_keeps_configInv (hi : s.configInv) (h : step s = .next t) : t.configInv := by
  obtain hk | ⟨-, -, -, -, ht⟩ := step_config h
  · exact configInv_of_keepsConfig hi hk
  · exact ht

/-- Settles O56: a step that leaves `CFG_VALID = 1` keeps the configuration of R29 or is the `MKCFG` that constructs it. -/
theorem stepKeepsConfiguration : Obligations.StepKeepsConfiguration :=
  fun _ _ hi h => step_keeps_configInv hi h

/-- Settles O54: from the same two forms of a step that leaves `CFG_VALID = 1`. -/
theorem configBearingWritesClear : Obligations.ConfigBearingWritesClear := by
  intro s t h ht
  obtain hk | ⟨he, hd, hm⟩ := step_config h
  · obtain ⟨-, hc, hkey⟩ := hk ht
    exact ⟨hc, .inl hkey⟩
  · obtain ⟨herr, hc, -⟩ := hm
    exact ⟨hc, .inr ⟨he, hd, herr⟩⟩

end Sys2Proof.Machine
end

section
/-! PROOFS. The ranges of the fields (R27, R28, R146, R236), the agreement of `CODE` and `CODESTR` (R166) and the canonical
form of memory: one rule per operation of the state, then one induction over the effects of a step each. -/

namespace Sys2Proof.Machine

variable {s t : State} {i : Option Instr}

/-! ## Arithmetic of the 65-bit counter and the time remaining -/

/-- R26: a 65-bit integer is read back from its low 64 bits and its sign. -/
theorem u64_sub_sign {c : Int} (hlo : -(2 ^ 64) ≤ c) (hhi : c < 2 ^ 64) :
    ((u64 c).toNat : Int) - 2 ^ 64 * ((decide (c < 0)).toNat : Int) = c := by
  have hu : ((u64 c).toNat : Int) = c % 2 ^ 64 := by
    rw [BitVec.toNat_ofInt]; exact Int.toNat_of_nonneg (Int.emod_nonneg _ (by norm_num))
  rw [hu]
  by_cases hc : c < 0
  · simp only [hc, decide_true, Bool.toNat_true]; omega
  · simp only [hc, decide_false, Bool.toNat_false]; omega

/-- R146: the low bits of a negative counter of 64-bit operands are not all 0. -/
theorem u64_counterOf_ne_zero (x y k : Word) (hk : 0 < s64 k) (hneg : counterOf (s64 x) (s64 y) (s64 k) < 0) :
    u64 (counterOf (s64 x) (s64 y) (s64 k)) ≠ 0 := by
  obtain ⟨hlo, hhi⟩ := counterOf_range x y k hk
  have pair := u64_sub_sign (by omega) (by omega : counterOf (s64 x) (s64 y) (s64 k) < 2 ^ 64)
  intro h0
  simp only [h0, hneg, decide_true, Bool.toNat_true, show (0 : Word).toNat = 0 from rfl] at pair
  omega

/-- R143: the time remaining lies in `[1, STEP]`. -/
theorem timeRemaining_range (x y : Int) {k : Int} (hk : 0 < k) : 1 ≤ timeRemaining x y k ∧ timeRemaining x y k ≤ k := by
  obtain ⟨-, hlo, hhi⟩ := fdiv_fmod_spec (x - y) k hk
  simp only [timeRemaining]
  omega

/-- R146: `REM` holds the time remaining itself, below `2^63`. -/
theorem u64_timeRemaining_toNat (x y : Int) (k : Word) (hk : 0 < s64 k) :
    ((u64 (timeRemaining x y (s64 k))).toNat : Int) = timeRemaining x y (s64 k) := by
  obtain ⟨hlo, hhi⟩ := timeRemaining_range x y hk
  have hmax := (s64_range k).2
  rw [BitVec.toNat_ofInt, Int.toNat_of_nonneg (Int.emod_nonneg _ (by norm_num))]
  exact Int.emod_eq_of_lt (by omega) (by omega)

/-! ## Ranges -/

/-- R236: an error code is 1 to 8. -/
theorem ErrorKind.errCode_le (k : ErrorKind) : k.errCode.toNat ≤ 8 := by cases k <;> decide

namespace State.rangeInv

/-- R36, R41: an end of a command, with any code of R236, leaves the ranges. -/
theorem ended (h : s.rangeInv) {st : Status} (herr : st.err.toNat ≤ 8) (hbusy : st.busy = false)
    (hcneg : st.cneg = s.status.cneg) : ({ s with status := st } : State).rangeInv := by
  obtain ⟨-, hcode, hrem, hneg, -⟩ := h
  exact ⟨herr, hcode, hrem, fun hc => hneg (hcneg ▸ hc), by simp [hbusy]⟩

theorem succeed (h : s.rangeInv) : s.succeed.rangeInv := h.ended (by simp) rfl rfl

/-- R146: the counter's pair and the time remaining are in range. -/
theorem setTime (h : s.rangeInv) (hstep : 0 < s64 s.regs.step) (ts : Word) : (s.setTime ts).rangeInv := by
  obtain ⟨herr, hcode, -, -, hbusy⟩ := h
  refine ⟨herr, hcode, ?_, fun hneg => ?_, hbusy⟩
  · have hrem := u64_timeRemaining_toNat (s64 ts) (s64 s.regs.t0) s.regs.step hstep
    have hle := (timeRemaining_range (s64 ts) (s64 s.regs.t0) hstep).2
    have hmax := (s64_range s.regs.step).2
    simp only [setTime_regs]
    omega
  · exact u64_counterOf_ne_zero _ _ _ hstep (by simpa using hneg)

/-- R162: a code number is below `2^31`. -/
theorem setCode (h : s.rangeInv) (x : HotpArgs) (c : Nat) : (s.setCode (otpNumber x c) (otpCode x c)).rangeInv := by
  obtain ⟨herr, -, hrem, hneg, hbusy⟩ := h
  refine ⟨herr, ?_, hrem, hneg, hbusy⟩
  rw [setCode_regs, BitVec.toNat_ofNat]
  exact (Nat.mod_le _ _).trans_lt (otpNumber_lt x c).1

/-- A register that no range speaks of takes any pattern. -/
theorem setReg (h : s.rangeInv) {r : Reg} (hr : r ∉ [Reg.ctr, .rem, .code]) (v : Word) : (s.setReg r v).rangeInv := by
  have hctr : (s.regs.set r v).ctr = s.regs.ctr := s.regs.get_set_other r .ctr v (by rintro rfl; simp at hr)
  have hrem : (s.regs.set r v).rem = s.regs.rem := s.regs.get_set_other r .rem v (by rintro rfl; simp at hr)
  have hcode : (s.regs.set r v).code = s.regs.code := s.regs.get_set_other r .code v (by rintro rfl; simp at hr)
  simpa only [State.rangeInv, setReg_status, setReg_regs, hctr, hrem, hcode] using h

theorem completes (h : s.rangeInv) (hc : Completes s i t) : t.rangeInv := by
  cases hc with
  | raises k => exact h.ended k.errCode_le rfl rfl
  | verifyRaises k => exact h.ended k.errCode_le rfl rfl
  | entersFatal hi => exact h.ended (ErrorKind.errCode_le .entropyUnavailable) rfl rfl
  | configures => exact succeed h
  | storesKey r => exact succeed h
  | storesText b => exact succeed h
  | storesSecret hi b => exact succeed h
  | clocks ts hstep => exact (h.setTime hstep ts).succeed
  | codes c _ => exact (h.setCode _ c).succeed
  | generates ts c hstep _ => exact ((h.setTime hstep ts).setCode _ c).succeed
  | verifies ts m => exact succeed h

theorem portWrite (h : s.rangeInv) {a : Nat} (h8 : a % 8 = 0) (v : Word) :
    (s.portWrite v (portPlace a)).rangeInv := by
  obtain e | ⟨hf, e⟩ | ⟨r, hr, e⟩ | e | ⟨r, hr, e⟩ | ⟨b, k, -, -, e⟩ := portWrite_cases s v h8 <;> rw [e]
  · exact h
  · obtain ⟨herr, hcode, hrem, hneg, -⟩ := h
    exact ⟨herr, hcode, hrem, hneg, by simp [hf]⟩
  · exact h.setReg (by rintro hm; cases r <;> simp [Reg.configBearing] at hr hm) v
  · obtain ⟨herr, hcode, hrem, -, hbusy⟩ := h
    exact ⟨herr, hcode, hrem, by simp, hbusy⟩
  · exact h.setReg ((by decide : ∀ r ∈ [Reg.ts, .window, .len, .candLen], r ∉ [Reg.ctr, .rem, .code]) r hr) v
  · exact h

theorem reset : State.reset.rangeInv := ⟨by decide, by decide, by decide, by decide, by decide⟩

end State.rangeInv

theorem step_keeps_rangeInv (hs : s.rangeInv) (h : step s = .next t) : t.rangeInv :=
  step_preserves (P := State.rangeInv) (fun _ _ h => h) .reset .completes (fun h h8 => h.portWrite h8 _) hs h

/-- Settles O58, by the rule of each effect of a step. -/
theorem stepKeepsRanges : Obligations.StepKeepsRanges :=
  fun _ _ hs h => step_keeps_rangeInv hs h

/-! ## `CODE` and `CODESTR` -/

/-- The bytes of `CODESTR` are in no other buffer. -/
theorem Buf.outside_of_codestr {b : Buf} (hb : b ≠ .codestr) {j : Nat} (hj : j < Config.codestrCap) :
    Buf.codestr.base + j < b.base ∨ b.base + b.cap ≤ Buf.codestr.base + j := by
  simp only [Config.codestrCap] at hj
  cases b with
  | codestr => exact absurd rfl hb
  | cand => simp only [Buf.base, Buf.cap, Config.candCap]; omega
  | text => simp only [Buf.base]; omega
  | key => simp only [Buf.base]; omega

namespace State.codeInv

theorem congr (h : s.codeInv) (hc : t.regs.code = s.regs.code)
    (hm : ∀ j < Config.codestrCap, t.bufByte .codestr j = s.bufByte .codestr j) : t.codeInv := by
  obtain ⟨h0, hz⟩ | ⟨d, h₆, h₁₀, hlt, hd⟩ := h
  · exact .inl ⟨hc.trans h0, fun j hj => (hm j hj).trans (hz j hj)⟩
  · refine .inr ⟨d, h₆, h₁₀, ?_, fun j hj => ?_⟩ <;> rw [hc]
    · exact hlt
    · exact (hm j hj).trans (hd j hj)

theorem setBuf (h : s.codeInv) {b : Buf} (hb : b ≠ .codestr) (x : List Byte) : (s.setBuf b x).codeInv :=
  h.congr rfl fun _ hj => State.read_setBuf_outside s (Buf.outside_of_codestr hb hj)

theorem setReg (h : s.codeInv) {r : Reg} (hr : r ≠ .code) (v : Word) : (s.setReg r v).codeInv :=
  h.congr (Regs.get_set_other _ _ .code _ hr.symm) fun _ _ => rfl

/-- R163, R166: the code's number and numeral written together agree, whatever was there before. -/
theorem setCode (s : State) {x : HotpArgs} (hx : 6 ≤ x.digits ∧ x.digits ≤ 10) (c : Nat) :
    (s.setCode (otpNumber x c) (otpCode x c)).codeInv := by
  obtain ⟨h31, hdigits⟩ := otpNumber_lt x c
  have hcode : (s.setCode (otpNumber x c) (otpCode x c)).regs.code.toNat = otpNumber x c := by
    rw [setCode_regs, BitVec.toNat_ofNat, Nat.mod_eq_of_lt (by omega)]
  refine .inr ⟨x.digits, hx.1, hx.2, ?_, fun j hj => ?_⟩ <;> rw [hcode]
  · exact hdigits
  · exact bufByte_setBuf_same (s.setReg .code (BitVec.ofNat 64 (otpNumber x c))) hj

theorem completes (h : s.codeInv) (hc : Completes s i t) : t.codeInv := by
  cases hc with
  | raises k => exact h
  | verifyRaises k => exact h
  | entersFatal hi => exact h
  | configures => exact h.setBuf (b := .key) (by simp) _
  | storesKey r => exact h.setBuf (b := .key) (by simp) r
  | storesText x => exact h.setBuf (b := .text) (by simp) x
  | storesSecret hi x => exact (h.setBuf (b := .key) (by simp) x).setBuf (b := .text) (by simp) _
  | clocks ts _ => exact h
  | codes c hx => exact setCode s hx c
  | generates ts c _ hx => exact setCode (s.setTime ts) hx c
  | verifies ts m => exact h

theorem portWrite (h : s.codeInv) {a : Nat} (h8 : a % 8 = 0) (v : Word) : (s.portWrite v (portPlace a)).codeInv := by
  obtain e | ⟨-, e⟩ | ⟨r, hr, e⟩ | e | ⟨r, hr, e⟩ | ⟨b, k, hb, hk, e⟩ := portWrite_cases s v h8 <;> rw [e]
  · exact h
  · exact h
  · exact h.setReg (by rintro rfl; cases hr) v
  · exact h
  · exact h.setReg (by rintro rfl; simp at hr) v
  · refine h.congr rfl fun j hj => Memory.read_write_outside _ ?_
    rw [leBytes_length]
    have := Buf.outside_of_codestr hb hj
    omega

theorem reset : State.reset.codeInv := .inl ⟨rfl, fun _ _ => rfl⟩

end State.codeInv

/-- R166: every step keeps `CODESTR` the numeral of `CODE`. -/
theorem step_keeps_codeInv (hs : s.codeInv) (h : step s = .next t) : t.codeInv :=
  step_preserves (P := State.codeInv) (fun _ _ h => h) .reset .completes (fun h h8 => h.portWrite h8 _) hs h

/-! ## The canonical form of memory -/

theorem Completes.mem_wf (hc : Completes s i t) (h : s.mem.wf) : t.mem.wf := by
  cases hc with
  | raises k => exact h
  | verifyRaises k => exact h
  | entersFatal hi => exact h
  | configures => exact Memory.write_padTo_wf h .key _
  | storesKey r => exact Memory.write_padTo_wf h .key r
  | storesText x => exact Memory.write_padTo_wf h .text x
  | storesSecret hi x => exact Memory.write_padTo_wf (Memory.write_padTo_wf h .key x) .text _
  | clocks ts _ => exact h
  | codes c _ => exact Memory.write_padTo_wf h .codestr _
  | generates ts c _ _ => exact Memory.write_padTo_wf h .codestr _
  | verifies ts m => exact h

theorem portWrite_mem_wf (h : s.mem.wf) {a : Nat} (h8 : a % 8 = 0) (v : Word) :
    (s.portWrite v (portPlace a)).mem.wf := by
  obtain e | ⟨-, e⟩ | ⟨r, -, e⟩ | e | ⟨r, -, e⟩ | ⟨b, k, -, hk, e⟩ := portWrite_cases s v h8 <;> rw [e]
  · exact h
  · exact h
  · exact h
  · exact h
  · exact h
  · exact Memory.write_leBytes_wf h b hk v

/-- Every step keeps memory in canonical form (log 7). -/
theorem step_keeps_mem_wf (hs : s.mem.wf) (h : step s = .next t) : t.mem.wf :=
  step_preserves (P := fun s => s.mem.wf) (fun _ _ h => h) State.reset_mem_wf (fun h hc => hc.mem_wf h)
    (fun h h8 => portWrite_mem_wf h h8 _) hs h

/-! ## The whole invariant, and progress -/

theorem step_keeps_inv (hs : s.inv) (h : step s = .next t) : t.inv := by
  obtain ⟨hmem, hconfig, hcode, hrange⟩ := hs
  exact ⟨step_keeps_mem_wf hmem h, step_keeps_configInv hconfig h, step_keeps_codeInv hcode h,
    step_keeps_rangeInv hrange h⟩

/-- Settles O59: no configuration stands behind `CFG_VALID = 0`, and the other three invariants hold of the values of
R43. -/
theorem resetMeetsEveryInvariant : Obligations.ResetMeetsEveryInvariant :=
  ⟨State.reset_mem_wf, fun h => absurd h (by decide), .reset, .reset⟩

/-- R29, R155: behind `CFG_VALID = 1` the arguments of `hotp` exist. -/
theorem State.configInv.hotpArgs (hi : s.configInv) (hc : s.status.cfgValid = true) : ∃ x, s.hotpArgs = some x := by
  obtain ⟨-, -, -, halg, -⟩ := hi hc
  obtain ⟨a, ha⟩ := Option.isSome_iff_exists.mp halg
  exact ⟨_, s.hotpArgs_of_config hi hc ha⟩

/-- R235: from a constructed configuration or none, every command answers a next state. -/
theorem exec_answers (hi : s.configInv) (i : Instr) : ∃ t, exec i s = .next t := by
  cases i with
  | mkcfg =>
    simp only [exec, execMkcfg]
    repeat' split
    all_goals exact ⟨_, rfl⟩
  | b32dec =>
    simp only [exec, execB32dec]
    repeat' split
    all_goals exact ⟨_, rfl⟩
  | b32enc => simp only [exec, execB32enc]; split <;> exact ⟨_, rfl⟩
  | gensec => simp only [exec, execGensec]; split <;> exact ⟨_, rfl⟩
  | rand => simp only [exec, execRand]; split <;> exact ⟨_, rfl⟩
  | clock w => simp only [exec, execClock]; split <;> exact ⟨_, rfl⟩
  | hotp =>
    cases hc : s.status.cfgValid with
    | false => exact ⟨_, if_pos hc⟩
    | true =>
      obtain ⟨x, hx⟩ := hi.hotpArgs hc
      simp only [exec, execHotp, hc, hx, reduceCtorEq, if_false]
      split <;> exact ⟨_, rfl⟩
  | gen w =>
    cases hc : s.status.cfgValid with
    | false => exact ⟨_, if_pos hc⟩
    | true =>
      obtain ⟨x, hx⟩ := hi.hotpArgs hc
      have hstep := not_le.mpr (hi hc).1
      simp only [exec, execGen, hc, hx, hstep, reduceCtorEq, if_false]
      split <;> exact ⟨_, rfl⟩
  | verify w =>
    cases hc : s.status.cfgValid with
    | false => exact ⟨_, if_pos hc⟩
    | true =>
      obtain ⟨x, hx⟩ := hi.hotpArgs hc
      have hstep := not_le.mpr (hi hc).1
      simp only [exec, execVerify, hc, hx, hstep, reduceCtorEq, if_false]
      repeat' split
      all_goals exact ⟨_, rfl⟩

theorem engineTurn_answers (hi : s.configInv) : ∃ t, engineTurn s = .next t := by
  simp only [engineTurn, complete]
  split
  · split
    · exact ⟨_, rfl⟩
    · exact exec_answers hi _
  · exact ⟨_, rfl⟩

/-- R67: a read answers, or is refused because the access does not exist on the port. -/
theorem hostRead_answers_or_refuses (a n : Nat) (s : State) :
    (∃ t, hostRead a n s = .next t) ∨
      (hostRead a n s = .refused .noSuchAccess ∧ ¬(a % 8 = 0 ∧ n = 8 ∧ a < 4096)) := by
  rw [← portAccess_iff, Bool.not_eq_true]
  simp only [hostRead]
  split
  · exact .inr ⟨rfl, ‹_›⟩
  · split <;> exact .inl ⟨_, rfl⟩

/-- R67: a write answers, or is refused because the access does not exist on the port. -/
theorem hostWrite_answers_or_refuses (a n : Nat) (v : Word) (s : State) :
    (∃ t, hostWrite a n v s = .next t) ∨
      (hostWrite a n v s = .refused .noSuchAccess ∧ ¬(a % 8 = 0 ∧ n = 8 ∧ a < 4096)) := by
  rw [← portAccess_iff, Bool.not_eq_true]
  simp only [hostWrite]
  split
  · exact .inr ⟨rfl, ‹_›⟩
  · split <;> exact .inl ⟨_, rfl⟩

/-- R67, R235: from a constructed configuration or none, a step answers a next state unless the next turn is an access
that does not exist on the port. -/
theorem step_answers_or_refuses (hi : s.configInv) :
    (∃ t, step s = .next t) ∨
      (step s = .refused .noSuchAccess ∧
        ∃ a n ts, ¬(a % 8 = 0 ∧ n = 8 ∧ a < 4096) ∧
          (s.env.schedule = .host (.read a n) :: ts ∨ ∃ v, s.env.schedule = .host (.write a n v) :: ts)) := by
  rcases hs : s.env.schedule with _ | ⟨⟨⟩ | ⟨⟨a, n⟩ | ⟨a, n, v⟩⟩ | ⟨⟩, ts⟩ <;> simp only [step, hs]
  · exact .inl (engineTurn_answers hi)
  · exact .inl (engineTurn_answers (s := s.withSchedule ts) hi)
  · obtain ht | ⟨hr, hn⟩ := hostRead_answers_or_refuses a n (s.withSchedule ts)
    · exact .inl ht
    · exact .inr ⟨hr, a, n, ts, hn, .inl rfl⟩
  · obtain ht | ⟨hr, hn⟩ := hostWrite_answers_or_refuses a n v (s.withSchedule ts)
    · exact .inl ht
    · exact .inr ⟨hr, a, n, ts, hn, .inr ⟨v, rfl⟩⟩
  · exact .inl ⟨_, rfl⟩

/-- Settles O60: progress and preservation. -/
theorem machineNeverFaults : Obligations.MachineNeverFaults := by
  intro s hs
  have ⟨_, hconfig, _⟩ := hs
  exact (step_answers_or_refuses hconfig).imp_left fun ⟨t, ht⟩ => ⟨t, ht, step_keeps_inv hs ht⟩

end Sys2Proof.Machine
end

section
/-! PROOFS. The statements of 10_state.md about single commands, draws, the port and the flags. -/

namespace Sys2Proof.Machine

variable {s t : State}

/-! ## Flags -/

/-- R35, R223: of all completions only the fatal entry of `RAND` and `GENSEC` changes `FATAL`, and only a `VERIFY` changes
`MATCH`, which each of its errors clears. -/
theorem Completes.fatal_matched {i : Option Instr} (h : Completes s i t) :
    (t.status.fatal = s.status.fatal ∨ ((i = some .rand ∨ i = some .gensec) ∧ t.status.err = 8)) ∧
      (t.status.matched = s.status.matched ∨
        ((∃ w, i = some (.verify w)) ∧ (t.status.matched = true → t.status.err = 0))) := by
  cases h with
  | entersFatal hi => exact ⟨.inr ⟨hi, rfl⟩, .inl rfl⟩
  | verifyRaises => exact ⟨.inl rfl, .inr ⟨⟨_, rfl⟩, fun ht => by cases ht⟩⟩
  | verifies => exact ⟨.inl rfl, .inr ⟨⟨_, rfl⟩, fun _ => rfl⟩⟩
  | raises => exact ⟨.inl rfl, .inl rfl⟩
  | configures => exact ⟨.inl rfl, .inl rfl⟩
  | storesKey => exact ⟨.inl rfl, .inl rfl⟩
  | storesText => exact ⟨.inl rfl, .inl rfl⟩
  | storesSecret => exact ⟨.inl rfl, .inl rfl⟩
  | clocks => exact ⟨.inl rfl, .inl rfl⟩
  | codes => exact ⟨.inl rfl, .inl rfl⟩
  | generates => exact ⟨.inl rfl, .inl rfl⟩

/-- A host write changes neither `FATAL` nor `MATCH`. -/
theorem portWrite_keeps_fatal_matched (s : State) (v : Word) {a : Nat} (h8 : a % 8 = 0) :
    (s.portWrite v (portPlace a)).status.fatal = s.status.fatal ∧
      (s.portWrite v (portPlace a)).status.matched = s.status.matched := by
  obtain e | ⟨-, e⟩ | ⟨r, -, e⟩ | e | ⟨r, -, e⟩ | ⟨b, k, -, -, e⟩ := portWrite_cases s v h8 <;>
    rw [e] <;> exact ⟨rfl, rfl⟩

/-- Settles O51: reset clears `FATAL`, host writes keep it, and of the completions only the fatal entry sets it. -/
theorem fatalSetOnlyByEntropy : Obligations.FatalSetOnlyByEntropy := by
  intro s t hs h ht
  have hne : t.status.fatal ≠ s.status.fatal := by simp [hs, ht]
  obtain ⟨-, e, rfl⟩ | ⟨e, rfl⟩ | ⟨he, e, hc⟩ | ⟨e, a, v, h8, -, rfl⟩ := step_effect h
  · cases ht
  · exact absurd rfl hne
  · exact ⟨he, hc.fatal_matched.1.resolve_left hne⟩
  · exact absurd (portWrite_keeps_fatal_matched _ v h8).1 hne

/-- Settles O52: host writes keep `MATCH`, and of the completions only a `VERIFY` writes it. -/
theorem matchWrittenOnlyByVerify : Obligations.MatchWrittenOnlyByVerify := by
  intro s t h hne
  obtain ⟨hr, -⟩ | ⟨e, rfl⟩ | ⟨he, e, hc⟩ | ⟨e, a, v, h8, -, rfl⟩ := step_effect h
  · exact .inl hr
  · exact absurd rfl hne
  · exact .inr ⟨he, hc.fatal_matched.2.resolve_left hne⟩
  · exact absurd (portWrite_keeps_fatal_matched _ v h8).2 hne

/-! ## The port -/

/-- R28, R64: bit `i` of the word of `STATUS`. -/
theorem Status.getLsbD_word (st : Status) (i : Nat) : st.word.getLsbD i =
    if i = 0 then st.busy else if i = 1 then st.cfgValid else if i = 2 then st.matched
    else if i = 3 then st.cneg else if i = 4 then st.fatal
    else if 8 ≤ i ∧ i < 12 then st.err.getLsbD (i - 8) else false := by
  simp only [Status.word, BitVec.getLsbD_append, BitVec.getLsbD_ofBool, BitVec.getLsbD_zero]
  by_cases hi : i < 12
  · interval_cases i <;> simp
  · simp (disch := omega) only [if_neg]

/-- R28: the `ERR` field of the word of `STATUS`. -/
theorem Status.extractLsb'_word (st : Status) : st.word.extractLsb' 8 4 = st.err := by
  refine BitVec.eq_of_getLsbD_eq fun j hj => ?_
  rw [BitVec.getLsbD_extractLsb', Status.getLsbD_word]
  simp (disch := omega) only [if_neg, if_pos]
  simp [hj]

/-- R72: `STATUS` reads as its word, in a busy interval too. -/
theorem hostRead_status (s : State) : hostRead 0x008 8 s = .next (s.reply s.status.word) :=
  (if_neg (by decide)).trans (if_neg fun h => h.2 rfl)

/-- Settles O10: the word is read in every state, and its bits are those of the fields. -/
theorem statusWordFields : Obligations.StatusWordFields := by
  refine fun s => ⟨s.status.word, hostRead_status s, ?_⟩
  simp only [Status.getLsbD_word]
  refine ⟨rfl, rfl, rfl, rfl, rfl, s.status.extractLsb'_word, fun i hi => ?_⟩
  simp (disch := omega) only [if_neg]

/-- R62, R72: the write of an offset that exists, in an idle block and in a busy one. -/
theorem hostWrite_eq {a : Nat} (ha : portAccess a 8 = true) (v : Word) (s : State) :
    hostWrite a 8 v s = .next (if s.status.busy then s else s.portWrite v (portPlace a)) := by
  simp only [hostWrite, ha, reduceCtorEq, if_false]
  split <;> rfl

/-- R61, R72: the read of an offset that exists, outside a busy interval. -/
theorem hostRead_idle {a : Nat} (ha : portAccess a 8 = true) {s : State} (hb : s.status.busy = false) :
    hostRead a 8 s = .next (s.reply (s.portWord (portPlace a))) := by
  simp only [hostRead, ha, hb, reduceCtorEq, false_and, if_false]

/-- R34, R73: the write of `CMD` in an idle block. -/
theorem portWrite_cmd (s : State) (v : Word) :
    s.portWrite v (portPlace 0x000) = if s.status.fatal then s else s.startCommand v := rfl

/-- Settles O8, by the cases of `BUSY` and `FATAL`. -/
theorem commandWriteStarts : Obligations.CommandWriteStarts := by
  refine fun s v => ⟨fun hb hf => ?_, fun h => ?_, fun hb => hostRead_idle rfl hb⟩
  · rw [hostWrite_eq rfl, portWrite_cmd, hb, hf]
    rfl
  · rw [hostWrite_eq rfl, portWrite_cmd]
    rcases h with hb | hf
    · rw [if_pos hb]
    · rw [if_pos hf, ite_self]

/-- Settles O9, by the address map of R21 and R63. -/
theorem registerSlotReads : Obligations.RegisterSlotReads := by
  intro s r hb
  rw [hostRead_idle (portAccess_reg r) hb, portPlace_reg]
  rfl

/-- Settles O7: the turn is `resetInput`, whose block is that of `State.reset`. -/
theorem resetPutsEveryValue : Obligations.ResetPutsEveryValue := by
  intro s ts hs
  have word : Status.reset.word = 0 := by decide
  exact ⟨(s.withSchedule ts).resetInput, by simp only [step, hs], rfl, word, rfl, fun _ _ => rfl, rfl, rfl, rfl, rfl,
    rfl⟩

/-! ## Draws -/

/-- An answer of the length asked for is passed on as it is. -/
theorem entropyBytes_self (k : Nat) (b : List Byte) : entropyBytes k b.length b = b :=
  List.ext_getElem (by simp) fun j _ hj => by simp [entropyBytes, hj]

/-- Settles O18: the answer wanted is the one lined up first. -/
theorem entropyAnswersFree : Obligations.EntropyAnswersFree :=
  ⟨fun s n => ⟨fun _ => State.drawEntropy_length, s.sameBlock_drawEntropy n⟩,
    fun _ b => ⟨[.bytes b], congrArg some (entropyBytes_self _ b)⟩, fun _ _ => ⟨[.unavailable], rfl⟩⟩

/-- R38: a sample of the clock is one draw. -/
theorem State.sampleClock_draws (s : State) : s.sampleClock.2.env.draws = s.env.draws + 1 := by
  unfold State.sampleClock; split <;> rfl

/-- Settles O19: the sample wanted is the one lined up first. -/
theorem timestampOperandSource : Obligations.TimestampOperandSource :=
  fun s => ⟨rfl, s.sameBlock_timestamp true, s.sampleClock_draws, fun v => ⟨[v], rfl⟩⟩

/-! ## `CLOCK` and `HOTP` -/

/-- R26, R146: the counter that `CLOCK` and `GEN` write reads back exactly. -/
theorem State.counterOperand_setTime (hstep : 0 < s64 s.regs.step) (ts : Word) :
    (s.setTime ts).counterOperand = counterOf (s64 ts) (s64 s.regs.t0) (s64 s.regs.step) := by
  obtain ⟨hlo, hhi⟩ := counterOf_range ts s.regs.t0 s.regs.step hstep
  exact u64_sub_sign (by omega) (by omega)

/-- R146: the time remaining that `CLOCK` and `GEN` write reads back exactly, signed or not. -/
theorem s64_u64_timeRemaining (x y : Int) (k : Word) (hk : 0 < s64 k) :
    s64 (u64 (timeRemaining x y (s64 k))) = timeRemaining x y (s64 k) := by
  have := u64_timeRemaining_toNat x y k hk
  have hle := (timeRemaining_range x y hk).2
  have hmax := (s64_range k).2
  rw [s64, BitVec.toInt_eq_toNat_of_lt (by omega), this]

/-- A `CLOCK` without an error wrote counter and time remaining of some timestamp. -/
theorem execClock_succeeds {w : Bool} (h : execClock w s = .next t) (herr : t.status.err = 0) :
    ∃ ts, 0 < s64 s.regs.step ∧ t.regs = (s.setTime ts).regs ∧
      t.counterOperand = counterOf (s64 ts) (s64 s.regs.t0) (s64 s.regs.step) := by
  obtain rfl | ⟨hstep, rfl⟩ := execClock_cases h
  · cases herr
  · refine ⟨(s.timestamp w).1, hstep, ?_, State.counterOperand_setTime hstep _⟩
    simp

/-- Settles O28: an answer with `ERR = 0` is the success of `CLOCK`, which writes exactly the counter and the time
remaining. -/
theorem clockPairIsExact : Obligations.ClockPairIsExact := by
  intro w s t h herr
  obtain ⟨ts, hstep, hregs, hctr⟩ := execClock_succeeds h herr
  obtain ⟨hlo, hhi⟩ := counterOf_range ts s.regs.t0 s.regs.step hstep
  obtain ⟨h₁, hk⟩ := timeRemaining_range (s64 ts) (s64 s.regs.t0) hstep
  have hrem := s64_u64_timeRemaining (s64 ts) (s64 s.regs.t0) s.regs.step hstep
  have hnat := u64_timeRemaining_toNat (s64 ts) (s64 s.regs.t0) s.regs.step hstep
  rw [hctr, hregs, State.setTime_regs]
  refine ⟨rfl, hrem, hnat.trans hrem.symm, ?_, ?_, hlo, hhi⟩ <;> rw [hrem]
  · exact h₁
  · exact hk

/-- R26: a counter that is not negative is `CTR` itself. -/
theorem State.counterOperand_eq_ctr {c : Nat} (h : s.counterOperand = c) : c = s.regs.ctr.toNat := by
  have := s.regs.ctr.isLt
  rw [State.counterOperand] at h
  cases hc : s.status.cneg <;> simp only [hc, Bool.toNat_false, Bool.toNat_true] at h <;> omega

/-- A `HOTP` without an error wrote the code of `CTR` for the arguments of its state. -/
theorem execHotp_succeeds (h : execHotp s = .next t) (herr : t.status.err = 0) :
    ∃ x, s.hotpArgs = some x ∧
      t = (s.setCode (otpNumber x s.regs.ctr.toNat) (otpCode x s.regs.ctr.toNat)).succeed := by
  obtain ⟨k, -, rfl⟩ | ⟨x, c, -, hx, hc, -, rfl⟩ := execHotp_cases h
  · cases k <;> cases herr
  · exact ⟨x, hx, by rw [State.counterOperand_eq_ctr hc]⟩

/-- Settles O37: both states have the same arguments and counter, so the same code is written over `CODESTR`. -/
theorem hotpDependsOnOperandsOnly : Obligations.HotpDependsOnOperandsOnly := by
  intro s s' t t' h h' herr herr' hctr hdigits halg hlen hkey
  obtain ⟨x, hx, rfl⟩ := execHotp_succeeds h herr
  obtain ⟨x', hx', rfl⟩ := execHotp_succeeds h' herr'
  have hxx : x = x' := Option.some.inj (hx.symm.trans ((State.hotpArgs_congr hdigits halg hlen hkey).trans hx'))
  subst hxx
  rw [hctr]
  exact ⟨rfl, fun j hj => (State.bufByte_setBuf_same _ hj).trans (State.bufByte_setBuf_same _ hj).symm⟩

end Sys2Proof.Machine
end

section
/-! PROOFS. The statements of 20_memory.md: which accesses exist on the port, what each place answers to a read and to a
write, and the accesses in a busy interval and after a fatal error. -/

namespace Sys2Proof.Machine

variable {s t : State} {a n : Nat}

/-! ## The canonical form of memory -/

/-- Settles O55: of the effects of a step only stores to buffers change memory, and `Memory.write` lays down canonical
cells. -/
theorem stepKeepsMemoryCanonical : Obligations.StepKeepsMemoryCanonical :=
  fun _ _ hs h => step_keeps_mem_wf hs h

/-! ## Turns of the schedule -/

/-- R41, R272: with no command in flight the engine's turn changes nothing. -/
theorem engineTurn_idle (hb : s.status.busy = false) : engineTurn s = .next s := if_neg (by simp [hb])

/-- Settles O6, by the first turn of the schedule. -/
theorem scheduledTurnsTaken : Obligations.ScheduledTurnsTaken := by
  refine fun s ts => ⟨fun a n hs => ?_, fun a n v hs => ?_, fun hs hb => ?_, fun hs hb => ?_⟩ <;> simp only [step, hs]
  · rfl
  · rfl
  · exact engineTurn_idle (s := s.withSchedule ts) hb
  · exact engineTurn_idle hb

/-! ## Which accesses exist -/

/-- R67: the refused accesses. -/
theorem portAccess_eq_false (h : ¬(a % 8 = 0 ∧ n = 8 ∧ a < 4096)) : portAccess a n = false := by
  rwa [← portAccess_iff, Bool.not_eq_true] at h

/-- Settles O17: both transactions first ask whether the access exists. -/
theorem onlyAlignedWordsExist : Obligations.OnlyAlignedWordsExist := by
  refine fun s a n v => ⟨fun h => ?_, fun h => ?_⟩
  · have refused := portAccess_eq_false h
    exact ⟨if_pos refused, if_pos refused⟩
  · exact ⟨(hostRead_answers_or_refuses a n s).resolve_right fun hr => hr.2 h,
      (hostWrite_answers_or_refuses a n v s).resolve_right fun hr => hr.2 h⟩

/-! ## One transaction -/

/-- R61, R69: a read has no side effect: it adds one reply and leaves the block. -/
theorem hostRead_sameBlock (h : hostRead a n s = .next t) :
    (∃ v, t.env.replies = v :: s.env.replies) ∧ s.sameBlock t := by
  obtain ⟨-, ⟨rfl, -⟩ | ⟨v, rfl⟩⟩ := hostRead_cases h
  · exact ⟨⟨_, rfl⟩, rfl, rfl, rfl, rfl⟩
  · exact ⟨⟨v, rfl⟩, rfl, rfl, rfl, rfl⟩

/-- R62: the write of an offset that exists, outside a busy interval. -/
theorem hostWrite_idle (ha : portAccess a 8 = true) (hb : s.status.busy = false) (v : Word) :
    hostWrite a 8 v s = .next (s.portWrite v (portPlace a)) := by
  simp [hostWrite_eq ha, hb]

/-- R70, R71: a write to a place that ignores it is dropped in an idle block and in a busy one. -/
theorem hostWrite_dropped (ha : portAccess a 8 = true) {v : Word} (h : s.portWrite v (portPlace a) = s) :
    hostWrite a 8 v s = .next s := by
  rw [hostWrite_eq ha, h, ite_self]

/-- Settles O15: the busy interval is asked for before the place of the access. -/
theorem busyIntervalRules : Obligations.BusyIntervalRules := by
  intro s a hb h8 hlt
  refine ⟨fun v => ?_, hostRead_status s, ?_⟩
  · rw [hostWrite_eq (portAccess_iff.mpr ⟨h8, rfl, hlt⟩), if_pos hb]
  · obtain ⟨t, ht⟩ := (hostRead_answers_or_refuses a 8 s).resolve_right fun hr => hr.2 ⟨h8, rfl, hlt⟩
    obtain ⟨⟨v, hv⟩, hblock⟩ := hostRead_sameBlock ht
    exact ⟨v, t, ht, hv, hblock⟩

/-! ## Reserved and read-only places -/

/-- R63, R70: the place of a reserved offset. -/
theorem portPlace_reserved (h8 : a % 8 = 0) (h : reservedOffset a) : portPlace a = .reserved := by
  obtain rfl | h | h := h
  · rfl
  · simp (disch := omega) only [portPlace, if_neg, if_pos]
  · simp (disch := omega) only [portPlace, if_neg]

/-- R70: the reserved offsets lie in the window. -/
theorem portAccess_reserved (h8 : a % 8 = 0) (h : reservedOffset a) : portAccess a 8 = true :=
  portAccess_iff.mpr ⟨h8, rfl, by unfold reservedOffset at h; omega⟩

/-- Settles O13, by the place of a reserved offset. -/
theorem reservedOffsetsInert : Obligations.ReservedOffsetsInert := by
  intro s a v h8 hr
  have access := portAccess_reserved h8 hr
  have place := portPlace_reserved h8 hr
  refine ⟨fun hb => ?_, hostWrite_dropped access ?_⟩
  · rw [hostRead_idle access hb, place]; rfl
  · rw [place]; rfl

/-- R71: a write to a read-only place changes nothing. -/
theorem portWrite_readOnly (s : State) (v : Word) {p : Place}
    (hp : p ∈ [Place.status, .reg .rem, .reg .code, .buf .codestr 0, .buf .codestr 1]) : s.portWrite v p = s := by
  simp only [List.mem_cons, List.not_mem_nil, or_false] at hp
  obtain rfl | rfl | rfl | rfl | rfl := hp <;> rfl

/-- Settles O14: the five offsets name the read-only places. -/
theorem readOnlyWritesDropped : Obligations.ReadOnlyWritesDropped := by
  have places : ∀ a ∈ [0x008, 0x050, 0x058, 0x090, 0x098], portAccess a 8 = true ∧
      portPlace a ∈ [Place.status, .reg .rem, .reg .code, .buf .codestr 0, .buf .codestr 1] := by decide
  refine fun s v => ⟨fun a ha => ?_, fun hb => hostRead_idle rfl hb⟩
  obtain ⟨access, place⟩ := places a ha
  exact hostWrite_dropped access (portWrite_readOnly s v place)

/-! ## Writes of registers and of words of buffers -/

/-- R30, R69: a write of a config-bearing register stores the pattern and clears `CFG_VALID`. -/
theorem State.writeReg_configBearing (s : State) (v : Word) {r : Reg} (hr : r.configBearing = true) :
    s.writeReg r v = (s.setReg r v).clearCfgValid := by
  cases r <;> cases hr <;> rfl

/-- R69: a write of a writable register that is neither config-bearing nor the counter stores the pattern alone. -/
theorem State.writeReg_plain (s : State) (v : Word) {r : Reg} (hr : r ∈ [Reg.ts, .window, .len, .candLen]) :
    s.writeReg r v = s.setReg r v := by
  simp only [List.mem_cons, List.not_mem_nil, or_false] at hr
  obtain rfl | rfl | rfl | rfl := hr <;> rfl

/-- R65, R69: a write of word `k` of a writable buffer. -/
theorem State.writeBufWord_writable (s : State) {b : Buf} (hb : b ≠ .codestr) (k : Nat) (v : Word) :
    s.writeBufWord b k v =
      { s with
        mem := s.mem.write (b.base + 8 * k) (leBytes v)
        status := { s.status with cfgValid := s.status.cfgValid && !b.configBearing } } := by
  cases b with
  | codestr => exact absurd rfl hb
  | cand => simp [State.writeBufWord, Buf.hostWritable, Buf.configBearing]
  | text => simp [State.writeBufWord, Buf.hostWritable, Buf.configBearing, State.clearCfgValid]
  | key => simp [State.writeBufWord, Buf.hostWritable, Buf.configBearing, State.clearCfgValid]

/-- R62, R63: a host write at the slot of a register. -/
theorem hostWrite_reg (r : Reg) (hb : s.status.busy = false) (v : Word) :
    hostWrite (8 * r.slot) 8 v s = .next (s.writeReg r v) := by
  rw [hostWrite_idle (portAccess_reg r) hb, portPlace_reg]; rfl

/-- R62, R63: a host write of word `k` of a buffer. -/
theorem hostWrite_buf (b : Buf) {k : Nat} (hk : 8 * k + 8 ≤ b.cap) (hb : s.status.busy = false) (v : Word) :
    hostWrite (b.base + 8 * k) 8 v s = .next (s.writeBufWord b k v) := by
  rw [hostWrite_idle (portAccess_buf b hk) hb, portPlace_buf b hk]; rfl

/-- R61, R63: a host read of word `k` of a buffer. -/
theorem hostRead_buf (b : Buf) {k : Nat} (hk : 8 * k + 8 ≤ b.cap) (hb : s.status.busy = false) :
    hostRead (b.base + 8 * k) 8 s = .next (s.reply (leWord (s.mem.bytes (b.base + 8 * k) 8))) := by
  rw [hostRead_idle (portAccess_buf b hk) hb, portPlace_buf b hk]; rfl

/-- R65: lane `j` of a word read from memory is the byte `j` above its offset. -/
theorem leWord_bytes_lane (m : Memory) (base : Nat) {j : Nat} (hj : j < 8) :
    (leWord (m.bytes base 8)).extractLsb' (8 * j) 8 = m.read (base + j) := by
  rw [leWord_lane (Memory.bytes_length _ _ _) hj, Memory.bytes_getD _ hj]

/-- R65: lane `j` of a word stored to memory is the byte `j` above its offset. -/
theorem Memory.read_write_leBytes (m : Memory) (base : Nat) (v : Word) {j : Nat} (hj : j < 8) :
    (m.write base (leBytes v)).read (base + j) = v.extractLsb' (8 * j) 8 := by
  rw [Memory.read_write_inside _ (by simpa using hj), leBytes_getD v hj]

/-- Settles O11: both directions go through the eight lanes of the word. -/
theorem bufferLanesLittleEndian : Obligations.BufferLanesLittleEndian := by
  intro s b k hb hk
  refine ⟨⟨_, hostRead_buf b hk hb, fun j hj => ?_⟩,
    fun hw v => ⟨_, hostWrite_buf b hk hb v, ?_⟩⟩
  · rw [leWord_bytes_lane _ _ hj, Nat.add_assoc]; rfl
  · rw [State.writeBufWord_writable s hw]
    refine ⟨fun j hj => ?_, fun a ha => Memory.read_write_outside _ (by simpa using ha), rfl, rfl, rfl⟩
    rw [State.bufByte, ← Nat.add_assoc]
    exact Memory.read_write_leBytes _ _ v hj

/-- Settles O12, place by place. -/
theorem hostWriteSideEffects : Obligations.HostWriteSideEffects := by
  intro s v hb
  refine ⟨fun hf => ?_, fun r hr => ?_, fun b hbuf k hk => ⟨_, hostWrite_buf b hk hb v, ?_⟩, hostWrite_reg .ctr hb v,
    fun r hr => ?_, fun k hk => ⟨_, hostWrite_buf .cand ?_ hb v, ?_⟩, fun a n t h => (hostRead_sameBlock h).2⟩
  · exact (commandWriteStarts s v).1 hb hf
  · have config : r.configBearing = true :=
      (by decide : ∀ r ∈ [Reg.t0, .step, .digits, .alg, .textLen, .keyLen], r.configBearing = true) r hr
    rw [hostWrite_reg r hb, State.writeReg_configBearing s v config]
    rfl
  · obtain ⟨writable, config⟩ :=
      (by decide : ∀ b ∈ [Buf.text, .key], b ≠ .codestr ∧ b.configBearing = true) b hbuf
    simp [State.writeBufWord_writable s writable, config]
  · rw [hostWrite_reg r hb, State.writeReg_plain s v hr]
    rfl
  · simp only [Buf.cap, Config.candCap]; omega
  · simp [State.writeBufWord_writable, Buf.configBearing]

/-! ## After a fatal error -/

/-- The same state with another `FATAL`. -/
def State.withFatal (s : State) (f : Bool) : State := { s with status := { s.status with fatal := f } }

theorem State.withFatal_restored {f : Bool} (h : s.status.fatal = f) (g : Bool) : (s.withFatal g).withFatal f = s := by
  subst h; rfl

/-- R73: only a write of `CMD` sees `FATAL`. -/
theorem portWrite_withFatal (s : State) (f : Bool) (v : Word) {p : Place} (hp : p ≠ .cmd) :
    (s.withFatal f).portWrite v p = (s.portWrite v p).withFatal f := by
  cases p with
  | cmd => exact absurd rfl hp
  | status => rfl
  | reserved => rfl
  | reg r => cases r <;> rfl
  | buf b k => cases b <;> rfl

/-- R73: only a read of `STATUS` sees `FATAL`. -/
theorem portWord_withFatal (s : State) (f : Bool) {p : Place} (hp : p ≠ .status) :
    (s.withFatal f).portWord p = s.portWord p := by
  cases p with
  | status => exact absurd rfl hp
  | cmd => rfl
  | reg r => rfl
  | buf b k => rfl
  | reserved => rfl

/-- R21: `CMD` is slot 0 alone. -/
theorem slotPlace_eq_cmd {i : Nat} (h : slotPlace i = .cmd) : i = 0 := by
  unfold slotPlace at h; split at h <;> cases h; rfl

/-- R21: `STATUS` is slot 1 alone. -/
theorem slotPlace_eq_status {i : Nat} (h : slotPlace i = .status) : i = 1 := by
  unfold slotPlace at h; split at h <;> cases h; rfl

/-- R63: the places of the register slots are named below the buffers. -/
theorem slot_of_portPlace {p : Place} (hp : p = .cmd ∨ p = .status) (h : portPlace a = p) : slotPlace (a / 8) = p := by
  unfold portPlace at h
  split at h
  · exact h
  · obtain rfl | rfl := hp <;> (repeat' split at h) <;> cases h

theorem portPlace_ne_cmd (h8 : a % 8 = 0) (ha : a ≠ 0) : portPlace a ≠ .cmd := fun h => by
  have := slotPlace_eq_cmd (slot_of_portPlace (.inl rfl) h)
  omega

theorem portPlace_ne_status (h8 : a % 8 = 0) (ha : a ≠ 0x008) : portPlace a ≠ .status := fun h => by
  have := slotPlace_eq_status (slot_of_portPlace (.inr rfl) h)
  omega

/-- Settles O16: the state is its copy with `FATAL = 0`, set to `FATAL = 1` again, and setting `FATAL` commutes with
both accesses. -/
theorem fatalOnlyDropsCommands : Obligations.FatalOnlyDropsCommands := by
  intro s v hb hf
  have restored : (s.withFatal false).withFatal true = s := State.withFatal_restored hf false
  refine ⟨(commandWriteStarts s v).2.1 (.inr hf), fun a h8 hlt => ?_⟩
  have access : portAccess a 8 = true := portAccess_iff.mpr ⟨h8, rfl, hlt⟩
  refine ⟨fun ha => ⟨_, _, hostWrite_idle access hb v, hostWrite_idle (s := s.withFatal false) access hb v, ?_⟩,
    fun ha => ⟨_, _, hostRead_idle access hb, hostRead_idle (s := s.withFatal false) access hb, ?_⟩⟩
  · calc s.portWrite v (portPlace a)
      _ = ((s.withFatal false).withFatal true).portWrite v (portPlace a) := by rw [restored]
      _ = ((s.withFatal false).portWrite v (portPlace a)).withFatal true :=
        portWrite_withFatal _ _ v (portPlace_ne_cmd h8 ha)
  · calc s.reply (s.portWord (portPlace a))
      _ = ((s.withFatal false).withFatal true).reply ((s.withFatal false).portWord (portPlace a)) := by
        rw [restored, portWord_withFatal s false (portPlace_ne_status h8 ha)]
      _ = ((s.withFatal false).reply ((s.withFatal false).portWord (portPlace a))).withFatal true := rfl

end Sys2Proof.Machine
end

section
/-! PROOFS. The statements of 30_encoding.md: a word is determined by its three fields (R90), and the round trip, the
opcode map and the grounds for an illegal word are all read off from them. -/

namespace Sys2Proof

open CommandWord

variable {v v' : Word} {o : BitVec 8} {b : Bool} {i : Instr}

/-! ## The fields of a word -/

@[simp] theorem op_commandWord : op (commandWord o b) = o := BitVec.extractLsb'_append_eq_right

@[simp] theorem w_commandWord : w (commandWord o b) = b :=
  BitVec.getLsbD_append.trans (BitVec.getLsbD_append.trans (by simp))

@[simp] theorem rsv_commandWord : rsv (commandWord o b) = 0 := by
  refine BitVec.eq_of_getLsbD_eq fun j hj => ?_
  have above : ¬9 + j < 8 ∧ 9 + j - 8 ≠ 0 := by omega
  rw [rsv, commandWord, BitVec.getLsbD_extractLsb', BitVec.getLsbD_append, BitVec.getLsbD_append]
  simp [above]

/-- R90: the three fields cover the word. -/
theorem eq_of_fields (hr : rsv v = rsv v') (ho : op v = op v') (hw : w v = w v') : v = v' := by
  refine BitVec.eq_of_getLsbD_eq fun j hj => ?_
  obtain hlt | rfl | hgt := Nat.lt_trichotomy j 8
  · simpa [op, hlt] using congrArg (·.getLsbD j) ho
  · exact hw
  · simpa [rsv, show j - 9 < 55 by omega, show 9 + (j - 9) = j by omega] using congrArg (·.getLsbD (j - 9)) hr

/-- R90: a word is built from `OP` and `W` exactly when these are its fields and `RSV` is 0. -/
theorem commandWord_eq_iff : commandWord o b = v ↔ rsv v = 0 ∧ op v = o ∧ w v = b := by
  constructor
  · rintro rfl
    exact ⟨rsv_commandWord, op_commandWord, w_commandWord⟩
  · rintro ⟨hr, rfl, rfl⟩
    exact eq_of_fields (rsv_commandWord.trans hr.symm) op_commandWord w_commandWord

/-! ## Decoding and encoding -/

/-- R95: the encoding of every command decodes to it. -/
@[simp] theorem decode_encode (i : Instr) : decode (encode i) = some i := by
  cases i <;> simp [encode, decode]

/-- R95: a branch of `decode` that answers a command has compared all three fields with the command's: three rows take
the `W` bit as it is, the other six stand where it is 0. -/
theorem encode_of_decode (h : decode v = some i) : encode i = v := by
  unfold decode at h
  obtain ⟨-, ⟨⟩⟩ | ⟨hr, h⟩ := ite_eq_iff.mp h
  have row {o : BitVec 8} {b : Bool} (ho : op v = o) (hw : w v = b) : commandWord o b = v :=
    commandWord_eq_iff.mpr ⟨not_not.mp hr, ho, hw⟩
  iterate 3
    obtain ⟨ho, ⟨⟩⟩ | ⟨-, h⟩ := ite_eq_iff.mp h
    · exact row ho rfl
  obtain ⟨-, ⟨⟩⟩ | ⟨hw, h⟩ := ite_eq_iff.mp h
  iterate 6
    obtain ⟨ho, ⟨⟩⟩ | ⟨-, h⟩ := ite_eq_iff.mp h
    · exact row ho (Bool.eq_false_iff.mpr hw)
  cases h

/-- Settles O3: `encode` is the right inverse of `decode`, and the fields of a word leave it no other encoding. -/
theorem decodeEncodeAgree : Obligations.DecodeEncodeAgree :=
  fun _ i => ⟨encode_of_decode, fun h => h ▸ decode_encode i⟩

/-- Settles O1, by the round trip: each word is the encoding of its command. -/
theorem legalWordsDecode : Obligations.LegalWordsDecode :=
  ⟨decode_encode .mkcfg, decode_encode (.gen false), decode_encode (.gen true), decode_encode (.verify false),
    decode_encode (.verify true), decode_encode .gensec, decode_encode .b32dec, decode_encode .b32enc,
    decode_encode (.clock false), decode_encode (.clock true), decode_encode .hotp, decode_encode .rand⟩

/-! ## The opcode map -/

/-- R92: the mask of a row without `W` keeps the whole word. -/
theorem and_fullMask (v : Word) : v &&& 0xFFFFFFFFFFFFFFFF = v := BitVec.and_allOnes

/-- R92: the mask of a row with `W` keeps `OP` and `RSV` and clears `W`. -/
theorem exists_commandWord_iff_and_mask (v : Word) (o : BitVec 8) :
    (∃ b, commandWord o b = v) ↔ v &&& 0xFFFFFFFFFFFFFEFF = commandWord o false := by
  have hr : rsv (v &&& 0xFFFFFFFFFFFFFEFF#64) = rsv v := (BitVec.extractLsb'_and ..).trans BitVec.and_allOnes
  have ho : op (v &&& 0xFFFFFFFFFFFFFEFF#64) = op v := (BitVec.extractLsb'_and ..).trans BitVec.and_allOnes
  have hw : w (v &&& 0xFFFFFFFFFFFFFEFF#64) = false := by simp [w]
  rw [eq_comm (a := v &&& _)]
  simp [commandWord_eq_iff, hr, ho, hw]

/-- Settles O2: through the round trip each row speaks of the row's encoding, whole or with `W` free. -/
theorem opcodeMapMatchMask : Obligations.OpcodeMapMatchMask := by
  intro v
  simp only [decodeEncodeAgree v _, and_fullMask, eq_comm (a := v)]
  exact ⟨.rfl, exists_commandWord_iff_and_mask v 0x02, exists_commandWord_iff_and_mask v 0x03, .rfl, .rfl, .rfl,
    exists_commandWord_iff_and_mask v 0x12, .rfl, .rfl⟩

/-! ## Illegal words -/

theorem legal_encode (i : Instr) : legal (encode i) = true := by
  cases i with
  | mkcfg => exact Laws.WordForm.mkcfg.2.1
  | gen w => exact (Laws.WordForm.gen w).2.1
  | verify w => exact (Laws.WordForm.verify w).2.1
  | gensec => exact Laws.WordForm.gensec.2.1
  | b32dec => exact Laws.WordForm.b32dec.2.1
  | b32enc => exact Laws.WordForm.b32enc.2.1
  | clock w => exact (Laws.WordForm.clock w).2.1
  | hotp => exact Laws.WordForm.hotp.2.1
  | rand => exact Laws.WordForm.rand.2.1

theorem legal_iff_fields : legal v = true ↔ op v ∈ opcodes ∧ rsv v = 0 ∧ (w v = true → op v ∈ wOpcodes) := by
  simp [legal, opDefined, rsvZero, wAllowed, and_assoc, imp_iff_not_or]

/-- R92, R94: the legal words are the words of the opcode map, row by row. -/
theorem legal_iff_exists_encode : legal v = true ↔ ∃ i, encode i = v := by
  refine ⟨fun h => ?_, fun ⟨i, h⟩ => h ▸ legal_encode i⟩
  obtain ⟨ho, hr, hw⟩ := legal_iff_fields.mp h
  have row {o : BitVec 8} (ho : op v = o) : commandWord o (w v) = v := commandWord_eq_iff.mpr ⟨hr, ho, rfl⟩
  have rowNoW {o : BitVec 8} (ho : op v = o) (hn : o ∉ wOpcodes) : commandWord o false = v :=
    commandWord_eq_iff.mpr ⟨hr, ho, Bool.eq_false_iff.mpr fun h => hn (ho ▸ hw h)⟩
  simp only [opcodes, List.mem_cons, List.not_mem_nil, or_false] at ho
  obtain ho | ho | ho | ho | ho | ho | ho | ho | ho := ho
  · exact ⟨.mkcfg, rowNoW ho (by decide)⟩
  · exact ⟨.gen _, row ho⟩
  · exact ⟨.verify _, row ho⟩
  · exact ⟨.gensec, rowNoW ho (by decide)⟩
  · exact ⟨.b32dec, rowNoW ho (by decide)⟩
  · exact ⟨.b32enc, rowNoW ho (by decide)⟩
  · exact ⟨.clock _, row ho⟩
  · exact ⟨.hotp, rowNoW ho (by decide)⟩
  · exact ⟨.rand, rowNoW ho (by decide)⟩

theorem op_toNat (v : Word) : (op v).toNat = v.toNat % 256 := by simp [op]

theorem op_mem_iff {l : List (BitVec 8)} : op v ∈ l ↔ v.toNat % 256 ∈ l.map BitVec.toNat := by
  rw [← op_toNat, List.mem_map_of_injective BitVec.toNat_injective]

theorem w_eq_true_iff : w v = true ↔ v.toNat / 256 % 2 = 1 := by
  simp [w, BitVec.getLsbD, Nat.testBit_eq_decide_div_mod_eq]

theorem rsv_eq_zero_iff : rsv v = 0 ↔ v.toNat / 512 = 0 := by
  have hlt : v.toNat / 512 < 2 ^ 55 := by omega
  rw [← BitVec.toNat_inj, rsv, BitVec.extractLsb'_toNat, Nat.shiftRight_eq_div_pow, Nat.mod_eq_of_lt hlt]
  rfl

theorem legal_iff_not_illegalBits : legal v = true ↔ ¬Machine.illegalBits v := by
  rw [legal_iff_fields, rsv_eq_zero_iff, w_eq_true_iff, op_mem_iff, op_mem_iff]
  change _ ↔ ¬(_ ∨ _ ∉ opcodes.map BitVec.toNat ∨ (_ ∧ _ ∉ wOpcodes.map BitVec.toNat))
  tauto

/-- R94: the words that do not decode are those that no command encodes to, and these are the illegal ones. -/
theorem decode_eq_none_iff : decode v = none ↔ Machine.illegalBits v := by
  calc decode v = none
    _ ↔ ¬∃ i, encode i = v := by
      simp only [Option.eq_none_iff_forall_ne_some, ne_eq, decodeEncodeAgree v _, not_exists]
    _ ↔ Machine.illegalBits v := by rw [← legal_iff_exists_encode, legal_iff_not_illegalBits, not_not]

/-- R94, R241: the completion of an illegal word. -/
theorem Machine.complete_illegal {s : State} (h : illegalBits s.pend) : complete s = .next (s.errorReport 6) := by
  rw [complete, decode_eq_none_iff.mpr h]
  rfl

/-- Settles O4: the start is the write of `CMD` in an idle block, and the completion the raise of `IllegalCommand`. -/
theorem illegalWordRaisesIllegalCommand : Obligations.IllegalWordRaisesIllegalCommand :=
  fun v => ⟨decode_eq_none_iff, fun s hv =>
    ⟨(Machine.commandWriteStarts s v).1, fun hp => Machine.complete_illegal (hp ▸ hv)⟩⟩

end Sys2Proof
end

section
/-! PROOFS. The statements of 40_config.md: the checks of `MKCFG` in their order, what it writes when all of them pass,
and that nothing else sets `CFG_VALID`. -/

namespace Sys2Proof.Machine

variable {s : State} {r : List Byte}

/-! ## Operands and the key buffer -/

/-- R99: the `ALG` codes that name no supported hash. -/
theorem Alg.ofCode_eq_none_iff {v : Word} : Alg.ofCode v = none ↔ v ∉ [0, 1, 2] := by
  simp [Alg.ofCode, ite_eq_iff]

/-- R128: the text that a `TEXT_LEN` in capacity names decodes to a key that fits `KEY`. -/
theorem State.decodedText_fits_key (hlen : s.regs.textLen.toNat ≤ Config.textCap)
    (hdec : b32decode s.textOperand = some r) : r.length ≤ Config.keyCap :=
  b32decode_fits_key hdec (by simpa [State.textOperand, State.buf])

/-- R33: a stored key has zero bytes after it. -/
theorem State.holds_storeKey (s : State) (r : List Byte) : (s.storeKey r).holds .key r :=
  fun _ hj => s.bufByte_setBuf_same hj

/-- Storing a key leaves every byte outside `KEY`. -/
theorem State.sameOutside_storeKey (s : State) (r : List Byte) : s.sameOutside (s.storeKey r) .key :=
  fun _ ha => s.read_setBuf_outside ha

/-! ## `MKCFG` -/

/-- R110: the first check, on the length of the text. -/
theorem execMkcfg_of_long (h : Config.textCap < s.regs.textLen.toNat) : execMkcfg s = .next (s.raise .capacity) :=
  if_pos h

/-- R110: the second check, on the text. -/
theorem execMkcfg_of_undecodable (hlen : s.regs.textLen.toNat ≤ Config.textCap) (hdec : b32decode s.textOperand = none) :
    execMkcfg s = .next (s.raise .invalidSecret) := by
  simp only [execMkcfg, if_neg hlen.not_gt, hdec]

/-- R110: the three checks behind the decoded text. -/
theorem execMkcfg_of_decoded (hlen : s.regs.textLen.toNat ≤ Config.textCap) (hdec : b32decode s.textOperand = some r) :
    execMkcfg s =
      if s64 s.regs.step ≤ 0 then .next (s.raise .invalidParameter)
      else if s64 s.regs.digits < 6 ∨ 10 < s64 s.regs.digits then .next (s.raise .invalidParameter)
      else if Alg.ofCode s.regs.alg = none then .next (s.raise .invalidAlgorithm)
      else .next ((s.storeKey r).setCfgValid).succeed := by
  simp only [execMkcfg, if_neg hlen.not_gt, hdec]

/-- Settles O20, check by check. -/
theorem mkcfgChecksInOrder : Obligations.MkcfgChecksInOrder := by
  refine fun s => ⟨execMkcfg_of_long, fun hlen => ⟨execMkcfg_of_undecodable hlen, fun r hdec => ?_⟩⟩
  have checks := execMkcfg_of_decoded hlen hdec
  refine ⟨fun hstep => ?_, fun hstep => ⟨fun hdigits => ?_, fun h₆ h₁₀ halg => ?_⟩⟩
  · exact checks.trans (if_pos hstep)
  · rw [if_neg hstep.not_ge, if_pos hdigits] at checks
    exact checks
  · rw [if_neg hstep.not_ge, if_neg (by omega), if_pos (Alg.ofCode_eq_none_iff.mpr halg)] at checks
    exact checks

/-- Settles O21: with the three checks behind the text passed, `MKCFG` stores the key, and the rest is the frame of a
stored key. -/
theorem mkcfgConstructsConfig : Obligations.MkcfgConstructsConfig := by
  intro s r hlen hdec hstep h₆ h₁₀ halg
  have checks := execMkcfg_of_decoded hlen hdec
  rw [if_neg hstep.not_ge, if_neg (by omega), if_neg fun h => Alg.ofCode_eq_none_iff.mp h halg] at checks
  exact ⟨_, checks, s.decodedText_fits_key hlen hdec, rfl, rfl, s.holds_storeKey r, s.sameOutside_storeKey r, rfl, rfl⟩

/-! ## `CFG_VALID` -/

/-- Settles O53: a step that keeps the configuration does not set `CFG_VALID`, and every other one is a successful
`MKCFG`. -/
theorem configValidOnlyByMkcfg : Obligations.ConfigValidOnlyByMkcfg := by
  intro s t h hs ht
  obtain hk | ⟨he, hd, herr, -⟩ := step_config h
  · exact absurd (hk ht).1 (by simp [hs])
  · exact ⟨he, hd, herr⟩

end Sys2Proof.Machine
end

section
/-! PROOFS. The statements of 41_secretcodec.md: the Base32 round trip, from what padding repair and the data characters
of an encoding are, the lengths, and the commands `B32DEC` and `B32ENC`. -/

namespace Sys2Proof.Machine

variable {s : State} {t d r : List Byte} {vs : List Nat}

/-! ## Numerals in base 256 and 32 -/

/-- A numeral's leading part counts by the length of what follows it. -/
theorem foldl_numeral {α : Type} (k : Nat) (f : α → Nat) (l : List α) (a : Nat) :
    l.foldl (fun a c => k * a + f c) a = a * k ^ l.length + l.foldl (fun a c => k * a + f c) 0 := by
  induction l generalizing a with
  | nil => simp
  | cons c l ih =>
    rw [List.foldl_cons, List.foldl_cons, ih, ih (k * 0 + f c), List.length_cons]
    ring

/-- R9: the first byte is the most significant. -/
theorem ube_cons (c : Byte) (b : List Byte) : ube (c :: b) = c.toNat * 256 ^ b.length + ube b := by
  simpa [ube] using foldl_numeral 256 BitVec.toNat b c.toNat

/-- R124: the first value is the most significant. -/
theorem b32number_cons (v : Nat) (vs : List Nat) : b32number (v :: vs) = v * 32 ^ vs.length + b32number vs := by
  simpa [b32number] using foldl_numeral 32 id vs v

/-- R9: a string of `n` bytes encodes a number below `256 ^ n`. -/
theorem ube_lt (b : List Byte) : ube b < 256 ^ b.length := by
  induction b with
  | nil => simp [ube]
  | cons c b ih =>
    have hc : c.toNat + 1 ≤ 256 := c.isLt
    calc ube (c :: b)
      _ < (c.toNat + 1) * 256 ^ b.length := by rw [ube_cons, add_one_mul]; omega
      _ ≤ 256 * 256 ^ b.length := Nat.mul_le_mul_right _ hc
      _ = 256 ^ (c :: b).length := by rw [List.length_cons, pow_succ']

/-- R9: `be(n, v)` keeps the low `8 n` bits of `v` alone. -/
theorem be_add_mul (n v x : Nat) : be n (x * 256 ^ n + v) = be n v := by
  induction n generalizing x with
  | zero => rfl
  | succ n ih =>
    have shift : x * 256 ^ (n + 1) + v = x * 256 * 256 ^ n + v := by ring
    have head : (x * 256 * 256 ^ n + v) / 256 ^ n = x * 256 + v / 256 ^ n := by
      rw [mul_comm (x * 256), Nat.mul_add_div (by positivity)]
    rw [be, be, shift, ih, head]
    congr 1
    exact BitVec.eq_of_toNat_eq (by simp)

/-- R9: a byte string is the encoding of its number. -/
theorem be_ube (b : List Byte) : be b.length (ube b) = b := by
  induction b with
  | nil => rfl
  | cons c b ih =>
    have head : (c.toNat * 256 ^ b.length + ube b) / 256 ^ b.length = c.toNat := by
      rw [mul_comm, Nat.mul_add_div (by positivity), Nat.div_eq_of_lt (ube_lt b), add_zero]
    rw [List.length_cons, be, ube_cons, head, be_add_mul, ih]
    simp

/-! ## Characters -/

/-- R121: `b32chr` is the inverse of `b32val`. -/
theorem b32val_b32chr : ∀ v < 32, b32val (b32chr v) = some v := by decide

/-- R120, R121: the padding character has no value. -/
theorem b32val_padChar : b32val padChar = none := by decide

/-- R121: a lower-case letter has no value, so a character with one is its own uppercase. -/
theorem upcase_of_b32val {c : Byte} (h : b32val c ≠ none) : upcase c = c := by
  refine if_neg fun hc => h ?_
  rw [b32val, if_neg (by omega), if_neg (by omega)]

theorem upcase_eq_padChar {c : Byte} (h : upcase c = padChar) : c = padChar := by
  unfold upcase padChar at *
  split at h
  · bv_omega
  · exact h

/-- R129: lower-casing, the map of the 26 ASCII upper-case letters. -/
def downcase (c : Byte) : Byte := if 0x41 ≤ c.toNat ∧ c.toNat ≤ 0x5A then c + 0x20 else c

/-- R122, R129: uppercasing takes lower-casing back. -/
theorem upcase_downcase (c : Byte) : upcase (downcase c) = upcase c := by
  unfold downcase
  split
  · unfold upcase
    rw [if_pos (by bv_omega), if_neg (by bv_omega)]
    bv_omega
  · rfl

/-- R124: every data character has a value. -/
theorem b32val_of_mem (hv : b32vals d = some vs) {c : Byte} (hc : c ∈ d) : b32val c ≠ none := by
  induction d generalizing vs with
  | nil => cases hc
  | cons e d ih =>
    simp only [b32vals] at hv
    split at hv
    · rename_i he hd
      obtain rfl | hc := List.mem_cons.mp hc
      · simp [he]
      · exact ih hd hc
    · cases hv

theorem padChar_notMem_of_b32vals (hv : b32vals d = some vs) : padChar ∉ d :=
  fun hc => b32val_of_mem hv hc b32val_padChar

/-! ## Padding -/

/-- R123, R125: the number of `=` that fill `m` characters up to a multiple of 8. -/
def padCount (m : Nat) : Nat := (8 - m % 8) % 8

/-- R123: padding repair appends what fills up the last group. -/
theorem padRepair_eq (t : List Byte) : padRepair t = t ++ List.replicate (padCount t.length) padChar := by
  unfold padRepair
  split
  · rw [padCount, Nat.mod_eq_of_lt (by omega : 8 - t.length % 8 < 8)]
  · rw [padCount, (by omega : (8 - t.length % 8) % 8 = 0), List.replicate_zero, List.append_nil]

/-- R123: padding repair leaves its own result. -/
theorem padRepair_padded (d : List Byte) :
    padRepair (d ++ List.replicate (padCount d.length) padChar) = d ++ List.replicate (padCount d.length) padChar :=
  if_neg (by simp only [List.length_append, List.length_replicate, padCount]; omega)

/-- R124: all `=` behind data characters are trailing. -/
theorem trailingPad_append_replicate (hd : padChar ∉ d) (p : Nat) :
    trailingPad (d ++ List.replicate p padChar) = p := by
  have stop : d.reverse.takeWhile (· == padChar) = [] := by
    rw [List.takeWhile_eq_nil_iff]
    exact fun _ e => hd (List.mem_reverse.mp (beq_iff_eq.mp e ▸ List.getElem_mem _))
  have pads : ∀ c ∈ List.replicate p padChar, (c == padChar) = true := fun _ hc =>
    beq_iff_eq.mpr (List.eq_of_mem_replicate hc)
  rw [trailingPad, List.reverse_append, List.reverse_replicate, List.takeWhile_append_of_pos pads, stop, List.append_nil,
    List.length_replicate]

/-- R124: a text that is data characters after uppercasing, with the padding or without it, decodes to what they pack. -/
theorem b32decode_of_data (hv : b32vals d = some vs) (hp : legalPadCount (padCount d.length) = true)
    (ht : t.map upcase = d ∨ t.map upcase = d ++ List.replicate (padCount d.length) padChar) :
    b32decode t = some (b32pack vs) := by
  have padded : padRepair (t.map upcase) = d ++ List.replicate (padCount d.length) padChar := by
    obtain ht | ht := ht <;> rw [ht]
    · exact padRepair_eq d
    · exact padRepair_padded d
  have trailing := trailingPad_append_replicate (padChar_notMem_of_b32vals hv) (padCount d.length)
  have data : (d ++ List.replicate (padCount d.length) padChar).length - padCount d.length = d.length := by simp
  simp only [b32decode, padded, trailing, data, List.take_left, hv, hp, if_true]

/-! ## Encodings -/

/-- R125: the data characters of `m` digits have values that write the number, modulo `32 ^ m`. -/
theorem b32vals_b32digits (m a : Nat) : ∃ vs, b32vals (b32digits m a) = some vs ∧ b32number vs = a % 32 ^ m := by
  induction m with
  | zero => exact ⟨[], rfl, by simp [b32number, Nat.mod_one]⟩
  | succ m ih =>
    obtain ⟨vs, hv, hn⟩ := ih
    have hc := b32val_b32chr (a / 32 ^ m % 32) (Nat.mod_lt _ (by decide))
    refine ⟨a / 32 ^ m % 32 :: vs, by simp only [b32digits, b32vals, hc, hv], ?_⟩
    rw [b32number_cons, hn, b32vals_length hv, b32digits_length, pow_succ, Nat.mod_mul]
    ring

/-- R124, R125: `ceil(8n/5)` characters that write `n` bytes with zero bits on the right pack these bytes. -/
theorem b32pack_of_number {b : List Byte} (hlen : vs.length = (8 * b.length + 4) / 5)
    (hn : b32number vs = ube b * 2 ^ (5 * vs.length - 8 * b.length)) : b32pack vs = b := by
  have hl : 5 * vs.length / 8 = b.length := by omega
  simp only [b32pack, hl, hn]
  rw [Nat.mul_div_cancel _ (by positivity), be_ube]

/-- R125: `n` bytes with zero bits on the right are a number of `5 m` bits. -/
theorem ube_mul_lt {b : List Byte} {m : Nat} (h : 8 * b.length ≤ 5 * m) :
    ube b * 2 ^ (5 * m - 8 * b.length) < 32 ^ m := by
  calc ube b * 2 ^ (5 * m - 8 * b.length)
    _ < 256 ^ b.length * 2 ^ (5 * m - 8 * b.length) := Nat.mul_lt_mul_of_pos_right (ube_lt b) (by positivity)
    _ = 2 ^ (8 * b.length + (5 * m - 8 * b.length)) := by rw [pow_add, pow_mul 2 8]; norm_num
    _ = 32 ^ m := by rw [Nat.add_sub_cancel' h, pow_mul 2 5]; norm_num

/-- R124, R125: the characters that `n` bytes need take a legal padding. -/
theorem legalPadCount_padCount (n : Nat) : legalPadCount (padCount ((8 * n + 4) / 5)) = true := by
  simp only [legalPadCount, padCount, Bool.or_eq_true, beq_iff_eq]
  omega

/-- R125: an encoding is data characters that pack the bytes, and the padding that fills up the last group. -/
theorem b32encode_data (b : List Byte) :
    ∃ d vs, b32encode b = d ++ List.replicate (padCount d.length) padChar ∧ b32vals d = some vs ∧ b32pack vs = b ∧
      legalPadCount (padCount d.length) = true := by
  obtain ⟨m, hm⟩ : ∃ m, m = (8 * b.length + 4) / 5 := ⟨_, rfl⟩
  obtain ⟨vs, hv, hn⟩ := b32vals_b32digits m (ube b * 2 ^ (5 * m - 8 * b.length))
  have hlen : vs.length = m := by rw [b32vals_length hv, b32digits_length]
  rw [Nat.mod_eq_of_lt (ube_mul_lt (by omega)), ← hlen] at hn
  refine ⟨_, vs, ?_, hv, b32pack_of_number (hlen.trans hm) hn, ?_⟩ <;> rw [b32digits_length, hm]
  · rfl
  · exact legalPadCount_padCount b.length

/-- R122: data characters are their own uppercase. -/
theorem map_upcase_of_b32vals (hv : b32vals d = some vs) : d.map upcase = d :=
  (List.map_congr_left fun _ hc => upcase_of_b32val (b32val_of_mem hv hc)).trans d.map_id

/-- Settles O24: each of the three texts is, after uppercasing, the data characters of the encoding with the padding or
without it; `M3======` has non-zero dropped bits, so it is not the encoding of its decode. -/
theorem base32RoundTrip : Obligations.Base32RoundTrip := by
  refine ⟨fun b => ?_, [0x4D, 0x33] ++ List.replicate 6 padChar, [0x66], by decide, by decide⟩
  obtain ⟨d, vs, he, hv, rfl, hp⟩ := b32encode_data b
  have data := map_upcase_of_b32vals hv
  have padded : (b32encode (b32pack vs)).map upcase = d ++ List.replicate (padCount d.length) padChar := by
    rw [he, List.map_append, data, List.map_replicate, (by decide : upcase padChar = padChar)]
  have stripped : (b32encode (b32pack vs)).takeWhile (· != padChar) = d := by
    have keep : ∀ c ∈ d, (c != padChar) = true := fun c hc =>
      bne_iff_ne.mpr fun e => padChar_notMem_of_b32vals hv (e ▸ hc)
    rw [he, List.takeWhile_append_of_pos keep, List.takeWhile_replicate, bne_self_eq_false, if_neg Bool.false_ne_true,
      List.append_nil]
  have lower : ((b32encode (b32pack vs)).map downcase).map upcase = (b32encode (b32pack vs)).map upcase := by
    rw [List.map_map]
    exact List.map_congr_left fun c _ => upcase_downcase c
  exact ⟨b32decode_of_data hv hp (.inr padded), stripped.symm ▸ b32decode_of_data hv hp (.inl data),
    b32decode_of_data hv hp (.inr (lower.trans padded))⟩

/-! ## Lengths -/

/-- R125: the data characters and the padding make `ceil(n/5)` groups of 8. -/
theorem b32encode_length (b : List Byte) : (b32encode b).length = 8 * ((b.length + 4) / 5) := by
  simp only [b32encode, List.length_append, b32digits_length, List.length_replicate]
  omega

/-- Settles O25. -/
theorem base32Lengths : Obligations.Base32Lengths :=
  ⟨fun _ _ => b32decode_fits_key, fun b => ⟨b32encode_length b, fun hb => by rw [b32encode_length]; omega⟩⟩

/-- Settles O26: padding repair would have to append 7, 5 or 2 padding characters, and none of these counts is legal. -/
theorem base32ImpossibleLengths : Obligations.Base32ImpossibleLengths := by
  intro t ht hlen
  rw [Option.eq_none_iff_forall_ne_some]
  intro r h
  obtain ⟨_, p, hp, -, hlegal, -⟩ := b32decode_cases h
  have noPad : padChar ∉ t.map upcase := fun hc => by
    obtain ⟨c, hc, e⟩ := List.mem_map.mp hc
    exact ht (upcase_eq_padChar e ▸ hc)
  have count : p = padCount t.length := by
    rw [hp, padRepair_eq, trailingPad_append_replicate noPad, List.length_map]
  have illegal : padCount t.length = 7 ∨ padCount t.length = 5 ∨ padCount t.length = 2 := by
    simp only [List.mem_cons, List.not_mem_nil, or_false] at hlen
    unfold padCount
    omega
  rw [count] at hlegal
  obtain h | h | h := illegal <;> rw [h] at hlegal <;> exact absurd hlegal (by decide)

/-! ## `B32DEC` and `B32ENC` -/

/-- R126: the second check, on the text. -/
theorem execB32dec_of_undecodable (hlen : s.regs.textLen.toNat ≤ Config.textCap)
    (hdec : b32decode s.textOperand = none) : execB32dec s = .next (s.raise .invalidSecret) := by
  simp only [execB32dec, if_neg hlen.not_gt, hdec]

/-- R126: the success of `B32DEC`. -/
theorem execB32dec_of_decoded (hlen : s.regs.textLen.toNat ≤ Config.textCap) (hdec : b32decode s.textOperand = some r) :
    execB32dec s = .next (s.storeKey r).succeed := by
  simp only [execB32dec, if_neg hlen.not_gt, hdec]

/-- Settles O22, check by check; the success is a stored key. -/
theorem b32decDecodesText : Obligations.B32decDecodesText :=
  fun s => ⟨fun h => if_pos h, fun hlen => ⟨execB32dec_of_undecodable hlen, fun r hdec =>
    ⟨_, execB32dec_of_decoded hlen hdec, rfl, rfl, s.holds_storeKey r, s.sameOutside_storeKey r, rfl, rfl⟩⟩⟩

/-- R33: a stored text has zero bytes after it. -/
theorem State.holds_storeText (s : State) (t : List Byte) : (s.storeText t).holds .text t :=
  fun _ hj => s.bufByte_setBuf_same hj

/-- Storing a text leaves every byte outside `TEXT`. -/
theorem State.sameOutside_storeText (s : State) (t : List Byte) : s.sameOutside (s.storeText t) .text :=
  fun _ ha => s.read_setBuf_outside ha

@[simp] theorem State.keyOperand_length (s : State) : s.keyOperand.length = s.regs.keyLen.toNat :=
  Memory.bytes_length ..

/-- Settles O23: the success is a stored text, whose length is that of the encoding. -/
theorem b32encEncodesKey : Obligations.B32encEncodesKey := by
  refine fun s => ⟨fun h => if_pos h, fun hlen => ⟨(s.storeText (b32encode s.keyOperand)).succeed, if_neg hlen.not_gt,
    rfl, ?_, s.holds_storeText _, s.sameOutside_storeText _, rfl, rfl⟩⟩
  rw [State.succeed_regs, State.storeText_regs, b32encode_length, State.keyOperand_length]

end Sys2Proof.Machine
end

section
/-! PROOFS. The statements of 42_counterclock.md: the divider over all integers, the command `CLOCK`, and the commands
that stop where `fdiv` or `hotp` is not defined. -/

namespace Sys2Proof.Machine

variable {s : State} {w : Bool}

/-! ## The counter -/

/-- R142: for a positive step the floor quotient is the quotient of Euclidean division. -/
theorem counterOf_eq_ediv {k : Int} (hk : 0 < k) (x y : Int) : counterOf x y k = (x - y) / k :=
  Int.fdiv_eq_ediv_of_nonneg _ hk.le

/-- R142: a counter value is held from the first timestamp of its step up to the first of the next. -/
theorem counterOf_eq_iff {k : Int} (hk : 0 < k) (x y c : Int) :
    counterOf x y k = c ↔ y + c * k ≤ x ∧ x < y + (c + 1) * k := by
  rw [counterOf_eq_ediv hk, Int.ediv_eq_iff_of_pos hk, add_mul, one_mul]
  omega

theorem counterOf_add_step {k : Int} (hk : 0 < k) (x y : Int) : counterOf (x + k) y k = counterOf x y k + 1 := by
  have h := Int.add_mul_fdiv_right (x - y) 1 hk.ne'
  rwa [one_mul, ← add_sub_right_comm] at h

theorem counterOf_mono {k : Int} (hk : 0 < k) {x x' : Int} (y : Int) (h : x ≤ x') :
    counterOf x y k ≤ counterOf x' y k := by
  rw [counterOf_eq_ediv hk, counterOf_eq_ediv hk]
  exact Int.ediv_le_ediv hk (Int.sub_le_sub_right h y)

/-- Settles O29, from the counter as a quotient of Euclidean division. -/
theorem counterHeldForOneStep : Obligations.CounterHeldForOneStep :=
  fun ts t0 _ c hk => ⟨counterOf_eq_iff hk ts t0 c, counterOf_add_step hk ts t0, fun _ => counterOf_mono hk t0⟩

/-! ## The time remaining -/

/-- R143: the timestamp `j` seconds on is a step boundary exactly when `j` differs from the time remaining by whole
steps. -/
theorem dvd_elapsed_iff (x y k j : Int) : k ∣ x + j - y ↔ k ∣ timeRemaining x y k - j := by
  have boundary : k ∣ x - y - (x - y).fmod k + k := Int.dvd_self_sub_fmod.add dvd_rfl
  have split : timeRemaining x y k - j = x - y - (x - y).fmod k + k - (x + j - y) := by
    rw [timeRemaining]
    ring
  rw [split, dvd_sub_right boundary]

/-- R143: the whole step remains exactly at a step boundary. -/
theorem timeRemaining_eq_step_iff {k : Int} (hk : 0 < k) (x y : Int) : timeRemaining x y k = k ↔ k ∣ x - y := by
  obtain ⟨h₁, hle⟩ := timeRemaining_range x y hk
  have h := dvd_elapsed_iff x y k 0
  rw [add_zero, sub_zero] at h
  rw [h]
  exact ⟨fun e => e.symm.dvd, fun hd => hle.antisymm (Int.le_of_dvd (by omega) hd)⟩

/-- R143: one second remains exactly when the next timestamp is a step boundary. -/
theorem timeRemaining_eq_one_iff {k : Int} (hk : 0 < k) (x y : Int) : timeRemaining x y k = 1 ↔ k ∣ x + 1 - y := by
  obtain ⟨h₁, hle⟩ := timeRemaining_range x y hk
  rw [dvd_elapsed_iff, ← sub_eq_zero]
  exact ⟨fun e => e ▸ dvd_zero k, Int.eq_zero_of_dvd_of_nonneg_of_lt (by omega) (by omega)⟩

/-- Settles O30: the range is `timeRemaining_range`, and its two ends are the two kinds of step boundary. -/
theorem timeRemainingInStep : Obligations.TimeRemainingInStep := by
  intro ts t0 k hk
  obtain ⟨-, hlo, hhi⟩ := fdiv_fmod_spec (ts - t0) k hk
  obtain ⟨h₁, hle⟩ := timeRemaining_range ts t0 hk
  exact ⟨⟨_, hlo, hhi, Int.dvd_self_sub_fmod, rfl⟩, h₁, hle, timeRemaining_eq_step_iff hk ts t0,
    timeRemaining_eq_one_iff hk ts t0⟩

/-! ## `CLOCK` -/

/-- R145: with a positive step `CLOCK` writes the time of the timestamp used. -/
theorem execClock_of_step_pos (hstep : 0 < s64 s.regs.step) :
    execClock w s = .next ((s.timestamp w).2.setTime (s.timestamp w).1).succeed := by
  rw [State.setTime, State.timestamp_regs]
  exact if_neg hstep.not_ge

/-- Settles O27: quotient and remainder are those of `fdiv` and `fmod`, and the rest is the frame of `setTime`. -/
theorem clockDividesWithFloor : Obligations.ClockDividesWithFloor := by
  refine fun w s => ⟨fun hstep => if_pos hstep, fun hstep => ?_⟩
  obtain ⟨hdiv, hlo, hhi⟩ := fdiv_fmod_spec (s64 (s.timestamp w).1 - s64 s.regs.t0) _ hstep
  refine ⟨_, _, _, execClock_of_step_pos hstep, hdiv, hlo, hhi, ?_, ?_, fun a => ?_, ?_, rfl⟩
  · rw [State.succeed_regs, State.setTime_regs, State.timestamp_regs]
    rfl
  · rw [State.succeed_status, State.setTime_status, State.timestamp_status, State.timestamp_regs]
    rfl
  · rw [State.succeed_mem, State.setTime_mem, State.timestamp_mem]
  · exact s.timestamp_pend w

/-! ## The stops -/

/-- R155: outside the domain of `hotp` a state gives it no arguments. -/
theorem State.hotpArgs_eq_none (h : Alg.ofCode s.regs.alg = none ∨ s64 s.regs.digits < 6 ∨ 10 < s64 s.regs.digits ∨
    160 < s.regs.keyLen.toNat) : s.hotpArgs = none := by
  rw [Option.eq_none_iff_forall_ne_some]
  intro x hx
  obtain ⟨a, ha, -, h₆, h₁₀, hkey⟩ := s.hotpArgs_cases hx
  obtain h | h | h | h := h
  · cases h.symm.trans ha
  · omega
  · omega
  · exact hkey.not_gt h

theorem execHotp_of_no_args (hc : s.status.cfgValid = true) (hx : s.hotpArgs = none) :
    execHotp s = .fault .hotpOutsideDomain := by
  simp only [execHotp, hc, hx, reduceCtorEq, if_false]

theorem execGen_of_step_nonpos (hc : s.status.cfgValid = true) (hstep : s64 s.regs.step ≤ 0) :
    execGen w s = .fault .stepNotPositive := by
  simp only [execGen, hc, hstep, reduceCtorEq, if_false, if_true]

theorem execGen_of_no_args (hc : s.status.cfgValid = true) (hstep : 0 < s64 s.regs.step) (hx : s.hotpArgs = none) :
    execGen w s = .fault .hotpOutsideDomain := by
  simp only [execGen, hc, hstep.not_ge, hx, reduceCtorEq, if_false]

theorem execVerify_of_step_nonpos (hc : s.status.cfgValid = true) (hlen : s.regs.candLen.toNat ≤ Config.candCap)
    (hwin : 0 ≤ s64 s.regs.window) (hstep : s64 s.regs.step ≤ 0) : execVerify w s = .fault .stepNotPositive := by
  simp only [execVerify, hc, hlen.not_gt, hwin.not_gt, hstep, reduceCtorEq, if_false, if_true]

theorem execVerify_of_no_args (hc : s.status.cfgValid = true) (hlen : s.regs.candLen.toNat ≤ Config.candCap)
    (hwin : 0 ≤ s64 s.regs.window) (hstep : 0 < s64 s.regs.step) (hx : s.hotpArgs = none) :
    execVerify w s = .fault .hotpOutsideDomain := by
  simp only [execVerify, hc, hlen.not_gt, hwin.not_gt, hstep.not_ge, hx, reduceCtorEq, if_false]

/-- Settles O44: each command stops at its first check that is no error of R241. -/
theorem undefinedConfigFaults : Obligations.UndefinedConfigFaults := by
  refine fun s w hc => ⟨execGen_of_step_nonpos hc, fun hstep hlen hwin => execVerify_of_step_nonpos hc hlen hwin hstep,
    fun h => ?_⟩
  have hx := State.hotpArgs_eq_none h
  exact ⟨execHotp_of_no_args hc hx, fun hstep => execGen_of_no_args hc hstep hx,
    fun hstep hlen hwin => execVerify_of_no_args hc hlen hwin hstep hx⟩

end Sys2Proof.Machine
end

section
/-! PROOFS. The statements of 43_hotpengine.md: dynamic truncation, the decimal code, the range of the counter, the
command `HOTP`, and the agreement of `CODE` and `CODESTR` over every step. -/

namespace Sys2Proof.Machine

variable {s : State} {x : HotpArgs}

/-! ## `CODE` and `CODESTR` -/

/-- Settles O57: of the effects of a step only `HOTP` and `GEN` write `CODE` or `CODESTR`, and `State.setCode` writes a
number together with its numeral. -/
theorem stepKeepsCodeNumeral : Obligations.StepKeepsCodeNumeral :=
  fun _ _ hs h => step_keeps_codeInv hs h

/-! ## Dynamic truncation -/

/-- R160: four bytes of a byte string from an offset on, byte by byte. -/
theorem take_four_drop {h : List Byte} {o : Nat} (ho : o + 3 < h.length) :
    (h.drop o).take 4 = [h.getD o 0, h.getD (o + 1) 0, h.getD (o + 2) 0, h.getD (o + 3) 0] := by
  rw [List.drop_eq_getElem_cons (by omega), List.drop_eq_getElem_cons (by omega), List.drop_eq_getElem_cons (by omega),
    List.drop_eq_getElem_cons (by omega)]
  simp only [List.take_succ_cons, List.take_zero, List.getD_eq_getElem, ho, (by omega : o + 2 < h.length),
    (by omega : o + 1 < h.length), (by omega : o < h.length)]

/-- R159, R160: an offset of four bits and the three bytes after it lie in a digest of 20 bytes. -/
theorem truncOffset_add_three_lt {h : List Byte} (hlen : 20 ≤ h.length) : truncOffset h + 3 < h.length := by
  rw [truncOffset]
  omega

/-- R160: the four bytes from the offset on, read most significant first. -/
theorem truncated_eq {h : List Byte} (hlen : 20 ≤ h.length) :
    truncated h = (h.getD (truncOffset h) 0).toNat * 2 ^ 24 + (h.getD (truncOffset h + 1) 0).toNat * 2 ^ 16 +
      (h.getD (truncOffset h + 2) 0).toNat * 2 ^ 8 + (h.getD (truncOffset h + 3) 0).toNat := by
  rw [truncated, take_four_drop (truncOffset_add_three_lt hlen)]
  simp only [ube, List.foldl_cons, List.foldl_nil]
  ring

/-- Settles O33: the code integer and its reduction are R161 and R162 as the model has them. -/
theorem truncationOfDigest : Obligations.TruncationOfDigest := by
  rintro h _ hlen rfl
  exact ⟨rfl, truncOffset_add_three_lt hlen, truncated_eq hlen, rfl, fun _ => rfl⟩

/-! ## The decimal code -/

/-- R163: character `i` of a numeral is the ASCII digit of weight `10 ^ (d - 1 - i)`. -/
theorem decimal_getD_toNat {d i : Nat} (n : Nat) (hi : i < d) :
    ((decimal d n).getD i 0).toNat = 0x30 + n / 10 ^ (d - 1 - i) % 10 := by
  induction d generalizing i with
  | zero => exact absurd hi (Nat.not_lt_zero i)
  | succ d ih =>
    cases i with
    | zero =>
      have digit : n / 10 ^ d % 10 < 10 := Nat.mod_lt _ (by norm_num)
      rw [decimal, List.getD_cons_zero, BitVec.toNat_ofNat, Nat.mod_eq_of_lt (by omega)]
      rfl
    | succ i =>
      rw [decimal, List.getD_cons_succ, ih (by omega), show d + 1 - 1 - (i + 1) = d - 1 - i by omega]

/-- Settles O34, from the bounds of the code number and the characters of its numeral. -/
theorem codeIsDecimalNumeral : Obligations.CodeIsDecimalNumeral := by
  intro x c
  obtain ⟨h31, hdigits⟩ := otpNumber_lt x c
  exact ⟨otpCode_length x c, h31, hdigits, fun _ hi => decimal_getD_toNat _ hi⟩

/-! ## The range of the counter -/

/-- R156: inside the range `hotp` answers the number and the code of the counter. -/
theorem hotp_of_lt (x : HotpArgs) {n : Nat} (h : n < 2 ^ 64) : hotp x n = some (otpNumber x n, otpCode x n) :=
  if_neg (by omega)

/-- Settles O35, by the one check of `hotp`. -/
theorem counterRangeChecked : Obligations.CounterRangeChecked := by
  refine fun x c => ⟨⟨hotp_none_cases, fun h => if_pos h⟩, ?_⟩
  rintro n rfl hn
  exact hotp_of_lt x hn

/-! ## `HOTP` -/

/-- R26: with `CNEG = 1` the counter is negative. -/
theorem State.counterOperand_neg (h : s.status.cneg = true) : s.counterOperand < 0 := by
  have := s.regs.ctr.isLt
  rw [State.counterOperand, h, Bool.toNat_true]
  omega

/-- R26: with `CNEG = 0` the counter is `CTR`. -/
theorem State.counterOperand_nonneg (h : s.status.cneg = false) : s.counterOperand = s.regs.ctr.toNat := by
  rw [State.counterOperand, h, Bool.toNat_false]
  omega

/-- R165: `HOTP` of a negative counter. -/
theorem execHotp_of_cneg (hc : s.status.cfgValid = true) (hx : s.hotpArgs = some x) (hneg : s.status.cneg = true) :
    execHotp s = .next (s.raise .invalidParameter) := by
  have range : hotp x s.counterOperand = none := if_pos (.inl (State.counterOperand_neg hneg))
  simp only [execHotp, hc, hx, range, reduceCtorEq, if_false]

/-- R165: `HOTP` of a counter in range. -/
theorem execHotp_of_not_cneg (hc : s.status.cfgValid = true) (hx : s.hotpArgs = some x) (hneg : s.status.cneg = false) :
    execHotp s = .next (s.setCode (otpNumber x s.regs.ctr.toNat) (otpCode x s.regs.ctr.toNat)).succeed := by
  have code := hotp_of_lt x s.regs.ctr.isLt
  rw [← State.counterOperand_nonneg hneg] at code
  simp only [execHotp, hc, hx, code, reduceCtorEq, if_false]

/-- R33, R166: `CODESTR` holds the code with zero bytes after it. -/
theorem State.holds_setCode (s : State) (n : Nat) (code : List Byte) : (s.setCode n code).holds .codestr code :=
  fun _ hj => (s.setReg .code (BitVec.ofNat 64 n)).bufByte_setBuf_same hj

/-- Writing a code leaves every byte outside `CODESTR`. -/
theorem State.sameOutside_setCode (s : State) (n : Nat) (code : List Byte) : s.sameOutside (s.setCode n code) .codestr :=
  fun _ ha => (s.setReg .code (BitVec.ofNat 64 n)).read_setBuf_outside ha

/-- Settles O36, check by check; the success is the frame of a written code. -/
theorem hotpWritesCode : Obligations.HotpWritesCode := by
  refine fun s => ⟨fun hc => if_pos hc, fun a hi hc ha => ?_⟩
  have hx := s.hotpArgs_of_config hi hc ha
  exact ⟨execHotp_of_cneg hc hx, fun hneg => ⟨_, execHotp_of_not_cneg hc hx hneg, rfl, s.holds_setCode _ _,
    s.sameOutside_setCode _ _, rfl, rfl, rfl⟩⟩

end Sys2Proof.Machine
end

section
/-! PROOFS. The statements of 44_hash_primitives.md: the two paddings, the sizes of the digests, and HMAC's key block. -/

namespace Sys2Proof.Machine

/-! ## The paddings -/

theorem pad64_length (m : List Byte) :
    (pad64 m).length = m.length + 1 + (119 - m.length % 64) % 64 + 8 := by
  simp only [pad64, List.length_append, List.length_singleton, List.length_replicate, be_length]

theorem pad128_length (m : List Byte) :
    (pad128 m).length = m.length + 1 + (239 - m.length % 128) % 128 + 16 := by
  simp only [pad128, List.length_append, List.length_singleton, List.length_replicate, be_length]

/-- R178: a message padded for SHA1 or SHA256 fills whole blocks of 64 bytes. -/
theorem pad64_length_mod (m : List Byte) : (pad64 m).length % 64 = 0 := by
  rw [pad64_length]
  omega

/-- R183: a message padded for SHA512 fills whole blocks of 128 bytes. -/
theorem pad128_length_mod (m : List Byte) : (pad128 m).length % 128 = 0 := by
  rw [pad128_length]
  omega

/-- R9: a number that fits in `n` bytes is what its big-endian encoding reads as. -/
theorem ube_be_of_lt {n v : Nat} (h : v < 256 ^ n) : ube (be n v) = v := by
  rw [ube_be, Nat.mod_eq_of_lt h]

/-! ## The digests -/

@[simp] theorem sha1_length (m : List Byte) : (sha1 m).length = 20 := by
  simp only [sha1, List.length_append, be_length]

@[simp] theorem Sha2State.bytes_length {w : Nat} (n : Nat) (x : Sha2State w) : (x.bytes n).length = 8 * n := by
  simp only [Sha2State.bytes, List.length_append, be_length]
  ring

/-- R175: a digest has the size its hash has in the table. -/
@[simp] theorem Alg.hash_length (a : Alg) (m : List Byte) : (a.hash m).length = a.hlen := by
  cases a with
  | sha1 => exact sha1_length m
  | sha256 => exact Sha2State.bytes_length 4 _
  | sha512 => exact Sha2State.bytes_length 8 _

/-- R158: an HMAC is a digest, so it has the digest's size. -/
@[simp] theorem hmac_length (a : Alg) (k m : List Byte) : (hmac a k m).length = a.hlen := a.hash_length _

/-- Settles O31: the paddings are R178 and R183 as the model has them, in whole blocks by their lengths, and every digest
has the size of its hash. -/
theorem digestSizes : Obligations.DigestSizes := by
  refine fun m k => ⟨⟨_, be 8 (8 * m.length), Nat.mod_lt _ (by norm_num), be_length .., fun h => ?_, rfl,
    pad64_length_mod m⟩, ⟨_, be 16 (8 * m.length), Nat.mod_lt _ (by norm_num), be_length .., fun h => ?_, rfl,
    pad128_length_mod m⟩, Alg.hash_length .sha1 m, Alg.hash_length .sha256 m, Alg.hash_length .sha512 m,
    fun a => hmac_length a k m⟩
  · exact ube_be_of_lt (by omega)
  · exact ube_be_of_lt (by omega)

/-! ## HMAC's key block -/

/-- R175: a digest is no longer than a block of its hash. -/
theorem Alg.hlen_le_blen (a : Alg) : a.hlen ≤ a.blen := by cases a <;> decide

theorem hmacShortKey_of_le {a : Alg} {key : List Byte} (h : key.length ≤ a.blen) : hmacShortKey a key = key := if_pos h

theorem hmacShortKey_of_gt {a : Alg} {key : List Byte} (h : a.blen < key.length) : hmacShortKey a key = a.hash key :=
  if_neg h.not_ge

/-- R176: what is padded to a block is no longer than a block. -/
theorem hmacShortKey_length_le (a : Alg) (key : List Byte) : (hmacShortKey a key).length ≤ a.blen := by
  obtain h | h := le_or_gt key.length a.blen
  · rwa [hmacShortKey_of_le h]
  · rw [hmacShortKey_of_gt h, Alg.hash_length]
    exact a.hlen_le_blen

/-- R176: `k0` is the short key padded to one block, since nothing of it is cut off. -/
theorem hmacKey_eq_padTo (a : Alg) (key : List Byte) : hmacKey a key = padTo a.blen (hmacShortKey a key) := by
  have fits : (hmacKey a key).length ≤ a.blen := by
    have := hmacShortKey_length_le a key
    rw [hmacKey, List.length_append, List.length_replicate]
    omega
  exact (List.take_of_length_le fits).symm

@[simp] theorem hmacKey_length (a : Alg) (key : List Byte) : (hmacKey a key).length = a.blen := by
  rw [hmacKey_eq_padTo, padTo_length]

/-- R176: inside the block, `k0` has the bytes of the short key and then zeros. -/
theorem hmacKey_getD {a : Alg} {i : Nat} (key : List Byte) (hi : i < a.blen) :
    (hmacKey a key).getD i 0 = (hmacShortKey a key).getD i 0 := by
  rw [hmacKey_eq_padTo, padTo_getD hi]

/-- Settles O32, with the model's `k0`: one block, and byte for byte the key or its hash. -/
theorem hmacOfPaddedKey : Obligations.HmacOfPaddedKey := by
  refine fun a key msg => ⟨hmacKey a key, hmacKey_length a key, fun h i hi => ?_, fun h i hi => ?_, rfl⟩
  · rw [hmacKey_getD key hi, hmacShortKey_of_le h]
  · rw [hmacKey_getD key hi, hmacShortKey_of_gt h]

end Sys2Proof.Machine
end

section
/-! PROOFS. The statements of 45_totpverifier.md: `GEN`, the checks of `VERIFY` in their order, the window of counters
and the candidate, and that a generated code verifies. -/

namespace Sys2Proof.Machine

variable {s t g : State} {x : HotpArgs} {w : Bool}

/-! ## The counter of the timestamp used -/

/-- R200, R202: the counter of the timestamp used. -/
def State.currentCounter (s : State) (w : Bool) : Int :=
  counterOf (s64 (s.timestamp w).1) (s64 s.regs.t0) (s64 s.regs.step)

/-- R201: the counter is negative exactly before `T0`. -/
theorem State.currentCounter_neg_iff (hstep : 0 < s64 s.regs.step) :
    s.currentCounter w < 0 ↔ s64 (s.timestamp w).1 < s64 s.regs.t0 := by
  rw [State.currentCounter, counterOf_eq_ediv hstep, ← not_le, Int.ediv_nonneg_iff_of_pos hstep, sub_nonneg, not_le]

/-- R146: no counter from `T0` on reaches `2^64`. -/
theorem State.currentCounter_eq_natCast (hstep : 0 < s64 s.regs.step) (ht0 : s64 s.regs.t0 ≤ s64 (s.timestamp w).1) :
    ∃ c : Nat, s.currentCounter w = c ∧ c < 2 ^ 64 := by
  have nonneg : ¬s.currentCounter w < 0 := (State.currentCounter_neg_iff hstep).not.mpr ht0.not_gt
  have below := (counterOf_range (s.timestamp w).1 s.regs.t0 s.regs.step hstep).2
  rw [← State.currentCounter] at below
  exact ⟨(s.currentCounter w).toNat, by omega, by omega⟩

/-- R142: whole steps later the counter is that many higher. -/
theorem counterOf_add_mul {k : Int} (hk : 0 < k) (x y n : Int) : counterOf (x + n * k) y k = counterOf x y k + n := by
  rw [counterOf, add_sub_right_comm, Int.add_mul_fdiv_right _ _ hk.ne', counterOf]

/-- R26: a counter that is not negative is written as its low 64 bits. -/
theorem u64_natCast (c : Nat) : u64 (c : Int) = BitVec.ofNat 64 c := BitVec.ofInt_natCast 64 c

/-! ## `GEN` -/

/-- R201: `GEN` of a timestamp before `T0`. -/
theorem execGen_of_counter_neg (hc : s.status.cfgValid = true) (hstep : 0 < s64 s.regs.step) (hx : s.hotpArgs = some x)
    (hneg : s.currentCounter w < 0) : execGen w s = .next ((s.timestamp w).2.raise .invalidParameter) := by
  have range : hotp x (s.currentCounter w) = none := if_pos (.inl hneg)
  rw [State.currentCounter] at range
  simp only [execGen, hc, hstep.not_ge, hx, range, reduceCtorEq, if_false]

/-- R201: `GEN` of a counter in range writes the time and the code of the counter. -/
theorem execGen_of_counter {c : Nat} (hc : s.status.cfgValid = true) (hstep : 0 < s64 s.regs.step)
    (hx : s.hotpArgs = some x) (hcount : s.currentCounter w = c) (hlt : c < 2 ^ 64) :
    execGen w s =
      .next (((s.timestamp w).2.setTime (s.timestamp w).1).setCode (otpNumber x c) (otpCode x c)).succeed := by
  have code := hotp_of_lt x hlt
  rw [← hcount, State.currentCounter] at code
  simp only [execGen, hc, hstep.not_ge, hx, code, reduceCtorEq, if_false, State.setTime, State.timestamp_regs]

/-- Settles O38: a timestamp before `T0` is a negative counter; from `T0` on, quotient and remainder are those of `fdiv`
and `fmod`, and the rest is the frame of a written time and code. -/
theorem genWritesResult : Obligations.GenWritesResult := by
  refine fun w s => ⟨fun hc => if_pos hc, fun a hi hc ha => ?_⟩
  have hstep := (hi hc).1
  have hx := s.hotpArgs_of_config hi hc ha
  refine ⟨fun hlt => execGen_of_counter_neg hc hstep hx ((State.currentCounter_neg_iff hstep).mpr hlt), fun ht0 => ?_⟩
  obtain ⟨c, hcount, hlt⟩ := State.currentCounter_eq_natCast hstep ht0
  obtain ⟨hdiv, hlo, hhi⟩ := fdiv_fmod_spec (s64 (s.timestamp w).1 - s64 s.regs.t0) _ hstep
  refine ⟨_, c, _, execGen_of_counter hc hstep hx hcount hlt, ?_, hlo, hhi, hlt, ?_, State.holds_setCode _ _ _,
    fun a ha => ?_, ?_, s.timestamp_pend w, rfl⟩
  · rw [← hcount]
    exact hdiv
  · rw [State.succeed_regs, State.setCode_regs, State.setTime_regs, State.timestamp_regs, ← State.currentCounter,
      hcount, u64_natCast]
    rfl
  · rw [State.succeed_mem, State.sameOutside_setCode _ _ _ a ha, State.setTime_mem, State.timestamp_mem]
  · rw [State.succeed_status, State.setCode_status, State.setTime_status, State.timestamp_status, State.timestamp_regs,
      ← State.currentCounter, hcount, decide_eq_false (by omega)]

/-! ## The checks of `VERIFY` -/

/-- R205: the second check, on the length of the candidate. -/
theorem execVerify_of_long_candidate (hc : s.status.cfgValid = true) (hlen : Config.candCap < s.regs.candLen.toNat) :
    execVerify w s = .next (s.raiseVerify .capacity) := by
  simp only [execVerify, hc, hlen, reduceCtorEq, if_false, if_true]

/-- R205: the third check, on the sign of the window. -/
theorem execVerify_of_window_neg (hc : s.status.cfgValid = true) (hlen : s.regs.candLen.toNat ≤ Config.candCap)
    (hwin : s64 s.regs.window < 0) : execVerify w s = .next (s.raiseVerify .invalidParameter) := by
  simp only [execVerify, hc, hlen.not_gt, hwin, reduceCtorEq, if_false, if_true]

/-! ## The window of counters -/

/-- R202: the counters that `VERIFY` tries are those at a distance of at most `win` from `cur`. -/
theorem windowMatch_iff_offset {cand : List Byte} {cur win : Int} (hwin : 0 ≤ win) (hlo : 0 ≤ cur - win) :
    windowMatch x cand (cur - win).toNat (2 * win.toNat + 1) = true ↔
      ∃ i, -win ≤ i ∧ i ≤ win ∧ otpCode x (cur + i).toNat = cand := by
  rw [windowMatch_iff]
  constructor
  · rintro ⟨c, hlow, hhigh, hcode⟩
    exact ⟨c - cur, by omega, by omega, by rwa [add_sub_cancel, Int.toNat_natCast]⟩
  · rintro ⟨i, hlow, hhigh, hcode⟩
    exact ⟨_, by omega, by omega, hcode⟩

section

variable (hc : s.status.cfgValid = true) (hlen : s.regs.candLen.toNat ≤ Config.candCap)
  (hstep : 0 < s64 s.regs.step) (hx : s.hotpArgs = some x)

include hc hlen hstep hx

/-- R203, R205: behind the first three checks, `VERIFY` of a constructed configuration checks the range of the window
and then looks for a match in it. -/
theorem execVerify_of_window_nonneg (hwin : 0 ≤ s64 s.regs.window) :
    execVerify w s =
      if s.currentCounter w - s64 s.regs.window < 0 ∨ 2 ^ 64 ≤ s.currentCounter w + s64 s.regs.window then
        .next ((s.timestamp w).2.raiseVerify .invalidParameter)
      else
        .next (((s.timestamp w).2.setReg .ts (s.timestamp w).1).setMatch (windowMatch x s.candOperand
          (s.currentCounter w - s64 s.regs.window).toNat (2 * (s64 s.regs.window).toNat + 1))).succeed := by
  simp only [execVerify, hc, hlen.not_gt, hwin.not_gt, hstep.not_ge, hx, reduceCtorEq, if_false]
  rfl

/-- R205: with all checks passed `VERIFY` writes the timestamp used and whether some counter of the window matches. -/
theorem execVerify_of_window_in_range (hwin : 0 ≤ s64 s.regs.window)
    (hlo : 0 ≤ s.currentCounter w - s64 s.regs.window) (hhi : s.currentCounter w + s64 s.regs.window < 2 ^ 64) :
    ∃ m, execVerify w s = .next (((s.timestamp w).2.setReg .ts (s.timestamp w).1).setMatch m).succeed ∧
      (m = true ↔ ∃ i, -s64 s.regs.window ≤ i ∧ i ≤ s64 s.regs.window ∧
        otpCode x (s.currentCounter w + i).toNat = s.candOperand) :=
  ⟨_, (execVerify_of_window_nonneg hc hlen hstep hx hwin).trans (if_neg (by omega)), windowMatch_iff_offset hwin hlo⟩

/-- R205: `VERIFY` with all checks passed matches a candidate that is the code of a counter of the window. -/
theorem execVerify_matches {i : Int} (hlo : 0 ≤ s.currentCounter w - s64 s.regs.window)
    (hhi : s.currentCounter w + s64 s.regs.window < 2 ^ 64) (hi : -s64 s.regs.window ≤ i) (hi' : i ≤ s64 s.regs.window)
    (hcode : otpCode x (s.currentCounter w + i).toNat = s.candOperand) :
    ∃ t, execVerify w s = .next t ∧ t.status.err = 0 ∧ t.status.matched = true := by
  obtain ⟨m, hexec, hm⟩ := execVerify_of_window_in_range hc hlen hstep hx (by omega) hlo hhi
  exact ⟨_, hexec, rfl, hm.mpr ⟨i, hi, hi', hcode⟩⟩

/-- R205: a `VERIFY` without an error passed the checks of the window. -/
theorem execVerify_window_checked (h : execVerify w s = .next t) (herr : t.status.err = 0) :
    0 ≤ s64 s.regs.window ∧ 0 ≤ s.currentCounter w - s64 s.regs.window ∧
      s.currentCounter w + s64 s.regs.window < 2 ^ 64 := by
  obtain hneg | hwin := lt_or_ge (s64 s.regs.window) 0
  · rw [execVerify_of_window_neg hc hlen hneg] at h
    cases h
    cases herr
  · rw [execVerify_of_window_nonneg hc hlen hstep hx hwin] at h
    split at h
    · cases h
      cases herr
    · omega

end

/-- R29, R155: a constructed configuration gives arguments whatever hash it names. -/
theorem State.exists_hotpArgs_of_config (hi : s.configInv) (hc : s.status.cfgValid = true) :
    ∃ x, s.hotpArgs = some x := by
  obtain ⟨-, -, -, halg, -⟩ := hi hc
  obtain ⟨a, ha⟩ := Option.isSome_iff_exists.mp halg
  exact ⟨_, s.hotpArgs_of_config hi hc ha⟩

/-- Settles O39, check by check. -/
theorem verifyChecksInOrder : Obligations.VerifyChecksInOrder := by
  refine fun w s => ⟨fun hc => if_pos hc, fun hc => ⟨execVerify_of_long_candidate hc, fun hlen =>
    ⟨execVerify_of_window_neg hc hlen, fun hwin hi hrange => ?_⟩⟩⟩
  obtain ⟨x, hx⟩ := State.exists_hotpArgs_of_config hi hc
  exact (execVerify_of_window_nonneg hc hlen (hi hc).1 hx hwin).trans (if_pos hrange)

/-- Settles O40: the match is that of the window, and the rest is the frame of `TS` and `MATCH`. -/
theorem verifyMatchesWindow : Obligations.VerifyMatchesWindow := by
  rintro w s a _ hi hc ha hlen hwin rfl hlo hhi
  have hx := s.hotpArgs_of_config hi hc ha
  obtain ⟨m, hexec, hm⟩ := execVerify_of_window_in_range hc hlen (hi hc).1 hx hwin hlo hhi
  refine ⟨_, hexec, hm, ?_, ?_, fun b => ?_, s.timestamp_pend w, rfl⟩
  · rw [State.succeed_status, State.setMatch_status, State.setReg_status, State.timestamp_status]
  · rw [State.succeed_regs, State.setMatch_regs, State.setReg_regs, State.timestamp_regs, Regs.set_ts]
  · rw [State.succeed_mem, State.setMatch_mem, State.setReg_mem, State.timestamp_mem]

/-! ## The candidate -/

/-- R9: a byte string read from a buffer has the given length and bytes exactly when it is the given one. -/
theorem State.eq_buf_iff {b : Buf} {n : Nat} {l : List Byte} :
    l = s.buf b n ↔ n = l.length ∧ ∀ j < l.length, s.bufByte b j = l.getD j 0 := by
  have hbuf : ∀ j < n, (s.buf b n).getD j 0 = s.bufByte b j := fun _ hj => Memory.bytes_getD _ hj
  have hlen : (s.buf b n).length = n := Memory.bytes_length _ _ _
  constructor
  · rintro rfl
    rw [hlen]
    exact ⟨rfl, fun j hj => (hbuf j hj).symm⟩
  · rintro ⟨rfl, hbytes⟩
    refine List.ext_getElem hlen.symm fun j hj hj' => ?_
    rw [← List.getD_eq_getElem l 0 hj, ← List.getD_eq_getElem _ 0 hj', hbuf j hj, hbytes j hj]

/-- R204: the candidate is a code exactly when it has as many bytes as the code has digits, and the same ones. -/
theorem otpCode_eq_candOperand_iff {c : Nat} :
    otpCode x c = s.candOperand ↔
      s.regs.candLen.toNat = x.digits ∧ ∀ j < x.digits, s.bufByte .cand j = (otpCode x c).getD j 0 := by
  rw [State.candOperand, State.eq_buf_iff, otpCode_length]

/-- R155: `DIGITS` of at least 6 is the natural number that `hotp` is given. -/
theorem State.configArgs_digits {a : Alg} (h₆ : 6 ≤ s64 s.regs.digits) :
    ((s.configArgs a).digits : Int) = s64 s.regs.digits :=
  Int.toNat_of_nonneg ((by decide : (0 : Int) ≤ 6).trans h₆)

/-- Settles O41: the digits of a constructed configuration are a natural number. -/
theorem candidateComparison : Obligations.CandidateComparison := by
  intro s a c hi hc
  obtain ⟨-, h₆, -⟩ := hi hc
  have digits := s.configArgs_digits (a := a) h₆
  rw [otpCode_eq_candOperand_iff, ← digits]
  simp only [Nat.cast_inj, Nat.cast_lt]

/-! ## A generated code verifies -/

/-- R155, R164: the arguments of `hotp` are the same in a state with the same `DIGITS`, `ALG` and key. -/
theorem State.hotpArgs_of_sameKey (hx : s.hotpArgs = some x) (hdigits : t.regs.digits = s.regs.digits)
    (halg : t.regs.alg = s.regs.alg) (hkey : s.sameKey t) : t.hotpArgs = some x := by
  obtain ⟨hlen, hbytes⟩ := hkey
  obtain ⟨-, -, -, -, -, hcap⟩ := s.hotpArgs_cases hx
  rw [← hx]
  exact State.hotpArgs_congr hdigits halg hlen fun i hi => hbytes i (hi.trans_le (hlen ▸ hcap))

/-- Writing a code leaves the key. -/
theorem State.sameKey_setCode (s : State) (n : Nat) (code : List Byte) : s.sameKey (s.setCode n code) :=
  ⟨rfl, fun _ _ => s.sameOutside_setCode n code _ (.inr (by simp only [Buf.base, Buf.cap, Config.codestrCap]; omega))⟩

/-- R201: after a `GEN` without an error the block holds the timestamp used and the code of its counter. -/
theorem execGen_succeeds (h : execGen w s = .next g) (herr : g.status.err = 0) :
    ∃ x c, g.hotpArgs = some x ∧ 0 < s64 g.regs.step ∧ g.regs.ts = (s.timestamp w).1 ∧
      counterOf (s64 g.regs.ts) (s64 g.regs.t0) (s64 g.regs.step) = (c : Nat) ∧ c < 2 ^ 64 ∧
      g.holds .codestr (otpCode x c) := by
  obtain rfl | ⟨-, rfl⟩ | ⟨x, c, -, hstep, hx, hcount, hlt, rfl⟩ := execGen_cases h
  · cases herr
  · cases herr
  · rw [← s.timestamp_regs w] at hstep hcount
    refine ⟨x, c, ?_, hstep, rfl, hcount, hlt, State.holds_setCode _ _ _⟩
    have hx₁ : (s.timestamp w).2.hotpArgs = some x := by
      rw [(s.sameBlock_timestamp w).eq_withEnv]
      exact hx
    exact State.hotpArgs_of_sameKey hx₁ rfl rfl (State.sameKey_setCode _ _ _)

/-- R207, R208: in `t` the configuration is that of `g`, and the candidate is a copy of the code in `CODESTR` of `g`. -/
structure State.CopiesCode (g t : State) : Prop where
  t0 : t.regs.t0 = g.regs.t0
  step : t.regs.step = g.regs.step
  digits : t.regs.digits = g.regs.digits
  alg : t.regs.alg = g.regs.alg
  key : g.sameKey t
  candLen : t.regs.candLen = g.regs.digits
  cand : ∀ j : Nat, (j : Int) < s64 g.regs.digits → t.bufByte .cand j = g.bufByte .codestr j

/-- R8: a pattern whose signed reading is not negative has one reading. -/
theorem toNat_s64 {v : Word} (h : 0 ≤ s64 v) : (s64 v).toNat = v.toNat := by
  rw [s64, BitVec.toInt_eq_toNat_of_lt (BitVec.toInt_pos_iff.mp h), Int.toNat_natCast]

/-- R204, R207: a copied code is a candidate that fits `CAND` and equals the code. -/
theorem State.CopiesCode.candidate {c : Nat} (hcopy : g.CopiesCode t) (hx : g.hotpArgs = some x)
    (hcode : g.holds .codestr (otpCode x c)) :
    t.hotpArgs = some x ∧ t.regs.candLen.toNat ≤ Config.candCap ∧ otpCode x c = t.candOperand := by
  obtain ⟨h₆, h₁₀⟩ := State.hotpArgs_digits hx
  obtain ⟨a, -, rfl, hlow, -⟩ := g.hotpArgs_cases hx
  have digits := g.configArgs_digits (a := a) hlow
  have len : t.regs.candLen.toNat = (g.configArgs a).digits := by
    rw [hcopy.candLen]
    exact (toNat_s64 (by omega)).symm
  refine ⟨State.hotpArgs_of_sameKey hx hcopy.digits hcopy.alg hcopy.key, ?_, ?_⟩
  · rw [len]
    exact h₁₀.trans (by decide)
  · refine otpCode_eq_candOperand_iff.mpr ⟨len, fun j hj => ?_⟩
    rw [hcopy.cand j (by omega)]
    exact hcode j ((hj.trans_le h₁₀).trans (by decide))

/-- Settles O42: the one counter of the window is the generating one. -/
theorem generateThenVerifyMatches : Obligations.GenerateThenVerifyMatches := by
  intro s g s' h herr _ hc hts ht0 hstep hdigits halg hkeyLen hkey hwin hcandLen hcand
  have hcopy : g.CopiesCode s' := ⟨ht0, hstep, hdigits, halg, ⟨hkeyLen, hkey⟩, hcandLen, hcand⟩
  obtain ⟨x, c, hx, hpos, -, hcount, hlt, hcode⟩ := execGen_succeeds (w := false) h herr
  obtain ⟨hx', hlen, hcand'⟩ := hcopy.candidate hx hcode
  rw [← hstep] at hpos
  have same : s'.currentCounter false = c := by
    rw [← hts, ← ht0, ← hstep] at hcount
    exact hcount
  have zero : s64 s'.regs.window = 0 := by
    rw [hwin]
    rfl
  exact execVerify_matches (w := false) (i := 0) hc hlen hpos hx' (by omega) (by omega) (by omega) (by omega)
    (by rwa [same, add_zero, Int.toNat_natCast])

/-- Settles O43: the generating counter is the lowest one of the window. -/
theorem windowBoundaryMatches : Obligations.WindowBoundaryMatches := by
  intro w w' s g s' t h herr _ hc ht0 hstep hdigits halg hkeyLen hkey hts hcandLen hcand hverify hverr
  have hcopy : g.CopiesCode s' := ⟨ht0, hstep, hdigits, halg, ⟨hkeyLen, hkey⟩, hcandLen, hcand⟩
  obtain ⟨x, c, hx, hpos, hgts, hcount, -, hcode⟩ := execGen_succeeds h herr
  obtain ⟨hx', hlen, hcand'⟩ := hcopy.candidate hx hcode
  have later : s'.currentCounter w' = c + s64 s'.regs.window := by
    rw [State.currentCounter, hts, ht0, hstep, counterOf_add_mul hpos, ← hgts, hcount]
  rw [← hstep] at hpos
  obtain ⟨hwin, hlo, hhi⟩ := execVerify_window_checked hc hlen hpos hx' hverify hverr
  have lowest : otpCode x (s'.currentCounter w' + -s64 s'.regs.window).toNat = s'.candOperand := by
    rwa [later, add_neg_cancel_right, Int.toNat_natCast]
  obtain ⟨t', ht', -, hmatch⟩ := execVerify_matches hc hlen hpos hx' hlo hhi le_rfl (by omega) lowest
  cases hverify.symm.trans ht'
  exact hmatch

end Sys2Proof.Machine
end

section
/-! PROOFS. The statements of 46_secretgenerator.md: what a generated secret leaves in the block, said once from the
draw on, and the two length policies in front of it. -/

namespace Sys2Proof.Machine

variable {s s₁ : State} {b : List Byte} {n : Nat}

/-! ## From the draw on -/

/-- Storing a text leaves every byte of `KEY`. -/
theorem State.bufByte_storeText_key (s : State) (t : List Byte) (j : Nat) :
    (s.storeText t).bufByte .key j = s.bufByte .key j :=
  s.sameOutside_storeText t _ (.inr (by simp only [Buf.base, Buf.cap, Config.textCap]; omega))

/-- R221: the two stores, done on a state with the same block: the key is still there after its Base32 text is stored. -/
theorem State.sameBlock.storesSecret (h : s.sameBlock s₁) (b : List Byte) :
    s.storesSecret b ((s₁.storeKey b).storeText (b32encode b)).succeed := by
  rw [h.eq_withEnv]
  refine ⟨rfl, ?_, fun j hj => ?_, State.holds_storeText _ _, fun a htext hkey => ?_, rfl⟩
  · rw [State.succeed_regs, State.storeText_regs, b32encode_length]
    rfl
  · exact (State.bufByte_storeText_key _ _ j).trans (State.holds_storeKey _ _ j hj)
  · exact (State.sameOutside_storeText _ _ a htext).trans (State.sameOutside_storeKey _ _ a hkey)

/-- R223: no answer of the source. -/
theorem State.generateSecret_of_unavailable (h : s.drawEntropy n = (none, s₁)) :
    s.generateSecret n = s₁.fatalReport := by
  simp only [State.generateSecret, h]
  rfl

/-- R220: an answer of the source. -/
theorem State.generateSecret_of_answer (h : s.drawEntropy n = (some b, s₁)) :
    s.generateSecret n = ((s₁.storeKey b).storeText (b32encode b)).succeed := by
  simp only [State.generateSecret, h]

/-- R221, R222: an answer of the source has the length asked for and is stored, and nothing after the draw touches what
is outside the block. -/
theorem State.generateSecret_stores {len : Int} (hlen : 0 ≤ len) (h : s.drawEntropy len.toNat = (some b, s₁)) :
    (b.length : Int) = len ∧ s.storesSecret b (s.generateSecret len.toNat) ∧
      (s.generateSecret len.toNat).env = s₁.env := by
  have block : s.sameBlock s₁ := by
    have frame := s.sameBlock_drawEntropy len.toNat
    rwa [h] at frame
  have length : b.length = len.toNat := State.drawEntropy_length (congrArg Prod.fst h)
  rw [State.generateSecret_of_answer h]
  exact ⟨by omega, block.storesSecret b, rfl⟩

/-! ## The length policies -/

/-- R221: a length that `KEY` holds goes on to the draw. -/
theorem execRand_of_len (h₁ : 1 ≤ s64 s.regs.len) (h₁₆₀ : s64 s.regs.len ≤ 160) :
    execRand s = .next (s.generateSecret (s64 s.regs.len).toNat) :=
  if_neg (not_or.mpr ⟨h₁.not_gt, h₁₆₀.not_gt⟩)

/-- R222: a length inside the policy goes on to the draw. -/
theorem execGensec_of_len (h₁₆ : 16 ≤ s64 s.regs.len) (h₆₄ : s64 s.regs.len ≤ 64) :
    execGensec s = .next (s.generateSecret (s64 s.regs.len).toNat) :=
  if_neg (not_or.mpr ⟨h₁₆.not_gt, h₆₄.not_gt⟩)

/-- Settles O45: the check on the length, then the two outcomes of the draw. -/
theorem randStoresSecret : Obligations.RandStoresSecret := by
  refine fun s => ⟨fun hlen => if_pos hlen, fun h₁ h₁₆₀ b s₁ hdraw => ?_, fun h₁ h₁₆₀ s₁ hdraw => ?_⟩
  · obtain ⟨length, stored, env⟩ := State.generateSecret_stores (by omega) hdraw
    exact ⟨_, execRand_of_len h₁ h₁₆₀, length, stored, env⟩
  · rw [← State.generateSecret_of_unavailable hdraw]
    exact execRand_of_len h₁ h₁₆₀

/-- Settles O46: inside the policy both commands go on to the same draw. -/
theorem gensecPolicy : Obligations.GensecPolicy := by
  refine fun s => ⟨fun hlen => if_pos hlen, fun h₁₆ h₆₄ => ⟨?_, fun b s₁ hdraw => ?_⟩⟩
  · exact (execGensec_of_len h₁₆ h₆₄).trans (execRand_of_len (by omega) (by omega)).symm
  · obtain ⟨length, stored, env⟩ := State.generateSecret_stores (by omega) hdraw
    exact ⟨_, execGensec_of_len h₁₆ h₆₄, length, stored, env⟩

end Sys2Proof.Machine
end

section
/-! PROOFS. The statements of 60_exceptions.md: the state a command that ends with an error code leaves, said once for
all commands, the outcomes of a completion, and the fatal state. -/

namespace Sys2Proof.Machine

variable {s t : State} {i : Instr} {k : ErrorKind}

/-! ## Errors and the fatal entry -/

/-- R236: the codes of the errors that are raised; code 8 is left to the fatal entry. -/
theorem ErrorKind.errCode_range (hk : k ≠ .entropyUnavailable) : 1 ≤ k.errCode.toNat ∧ k.errCode.toNat ≤ 7 := by
  cases k
  case entropyUnavailable => exact absurd rfl hk
  all_goals decide

/-- R35, R241: `raise K` as the command `i` performs it; `VERIFY` also clears `MATCH`. -/
def State.raiseIn (s : State) (i : Instr) (k : ErrorKind) : State :=
  match i with
  | .verify _ => s.raiseVerify k
  | _ => s.raise k

theorem State.raiseIn_of_ne_verify (hi : ∀ w, i ≠ .verify w) : s.raiseIn i k = s.raise k := by
  cases i
  case verify w => exact absurd rfl (hi w)
  all_goals rfl

@[simp] theorem State.raiseIn_regs : (s.raiseIn i k).regs = s.regs := by cases i <;> rfl
@[simp] theorem State.raiseIn_mem : (s.raiseIn i k).mem = s.mem := by cases i <;> rfl
@[simp] theorem State.raiseIn_pend : (s.raiseIn i k).pend = s.pend := by cases i <;> rfl
@[simp] theorem State.raiseIn_err : (s.raiseIn i k).status.err = k.errCode := by cases i <;> rfl
@[simp] theorem State.raiseIn_fatal : (s.raiseIn i k).status.fatal = s.status.fatal := by cases i <;> rfl

/-- R239, R241, R243: a command that ends with an error code has entered the fatal state or raised an error other than
`EntropyUnavailable`, on the block its draws left as it was. -/
theorem exec_error_cases (h : exec i s = .next t) (herr : t.status.err ≠ 0) :
    ∃ e, t = (s.withEnv e).enterFatal ∨ ∃ k, k ≠ .entropyUnavailable ∧ t = (s.withEnv e).raiseIn i k := by
  have clock : ∀ w, (s.timestamp w).2 = s.withEnv (s.timestamp w).2.env := fun w =>
    (s.sameBlock_timestamp w).eq_withEnv
  have secret : ∀ n, t = s.generateSecret n → ∃ e, t = (s.withEnv e).enterFatal := fun n ht => by
    obtain ⟨-, hg⟩ | ⟨b, -, -, hg⟩ := generateSecret_cases s n
    · exact ⟨_, by rw [ht, hg, ← (s.sameBlock_drawEntropy n).eq_withEnv]⟩
    · exact absurd (by rw [ht, hg]; rfl) herr
  cases i with
  | mkcfg =>
    obtain ⟨k, hk, rfl⟩ | ⟨r, -, -, -, -, -, -, rfl⟩ := execMkcfg_cases h
    · exact ⟨s.env, .inr ⟨k, hk, rfl⟩⟩
    · exact absurd rfl herr
  | b32dec =>
    obtain ⟨k, hk, rfl⟩ | ⟨r, -, -, rfl⟩ := execB32dec_cases h
    · exact ⟨s.env, .inr ⟨k, hk, rfl⟩⟩
    · exact absurd rfl herr
  | b32enc =>
    obtain ⟨k, hk, rfl⟩ | rfl := execB32enc_cases h
    · exact ⟨s.env, .inr ⟨k, hk, rfl⟩⟩
    · exact absurd rfl herr
  | rand =>
    obtain rfl | ⟨-, -, ht⟩ := execRand_cases h
    · exact ⟨s.env, .inr ⟨.invalidLength, by decide, rfl⟩⟩
    · exact (secret _ ht).imp fun _ => .inl
  | gensec =>
    obtain rfl | ⟨-, -, ht⟩ := execGensec_cases h
    · exact ⟨s.env, .inr ⟨.invalidLength, by decide, rfl⟩⟩
    · exact (secret _ ht).imp fun _ => .inl
  | clock w =>
    obtain rfl | ⟨-, rfl⟩ := execClock_cases h
    · exact ⟨s.env, .inr ⟨.invalidParameter, by decide, rfl⟩⟩
    · exact absurd rfl herr
  | hotp =>
    obtain ⟨k, hk, rfl⟩ | ⟨x, c, -, -, -, -, rfl⟩ := execHotp_cases h
    · exact ⟨s.env, .inr ⟨k, hk, rfl⟩⟩
    · exact absurd rfl herr
  | gen w =>
    obtain rfl | ⟨-, rfl⟩ | ⟨x, c, -, -, -, -, -, rfl⟩ := execGen_cases h
    · exact ⟨s.env, .inr ⟨.noConfig, by decide, rfl⟩⟩
    · rw [clock]; exact ⟨_, .inr ⟨.invalidParameter, by decide, rfl⟩⟩
    · exact absurd rfl herr
  | verify w =>
    obtain ⟨k, hk, rfl | rfl⟩ | ⟨x, m, -, -, rfl⟩ := execVerify_cases h
    · exact ⟨s.env, .inr ⟨k, hk, rfl⟩⟩
    · rw [clock]; exact ⟨_, .inr ⟨k, hk, rfl⟩⟩
    · exact absurd rfl herr

/-- Settles O49: an error code other than 8 is that of a raised error, so the state is the one `raise K` leaves. -/
theorem errorsWriteNothingElse : Obligations.ErrorsWriteNothingElse := by
  intro i s t h herr h8
  obtain ⟨e, rfl | ⟨k, -, rfl⟩⟩ := exec_error_cases h herr
  · exact absurd rfl h8
  · refine ⟨State.raiseIn_regs, State.raiseIn_mem, State.raiseIn_pend, fun hi => ?_, ?_⟩
    · rw [State.raiseIn_of_ne_verify hi]
      rfl
    · rintro w rfl
      rfl

/-! ## The outcomes of a completion -/

/-- R41, R272: every completion clears `BUSY` and keeps `PEND`. -/
theorem Completes.busy_pend {i : Option Instr} (h : Completes s i t) : t.status.busy = false ∧ t.pend = s.pend := by
  cases h <;> exact ⟨rfl, rfl⟩

/-- R235: from a constructed configuration or none, the completion of any word answers a next state. -/
theorem complete_answers (hi : s.configInv) : ∃ t, complete s = .next t := by
  cases hd : decode s.pend with
  | none => exact ⟨s.raise .illegalCommand, by simp only [complete, hd]⟩
  | some i => simpa only [complete, hd] using exec_answers hi i

/-- R235: success, one error code 1 to 7, or the fatal outcome. -/
theorem complete_outcome (h : complete s = .next t) :
    (t.status.err = 0 ∧ t.status.fatal = s.status.fatal) ∨
      (1 ≤ t.status.err.toNat ∧ t.status.err.toNat ≤ 7 ∧ t.status.fatal = s.status.fatal) ∨
      (t.status.err = 8 ∧ t.status.fatal = true) := by
  by_cases herr : t.status.err = 0
  · obtain ⟨e, hc⟩ := completes_of_complete h
    exact .inl ⟨herr, hc.fatal_matched.1.resolve_right fun ⟨_, h8⟩ => by simp [herr] at h8⟩
  · obtain ⟨-, rfl⟩ | ⟨i, -, hx⟩ := complete_cases h
    · obtain ⟨h₁, h₇⟩ := ErrorKind.errCode_range (k := .illegalCommand) (by decide)
      exact .inr (.inl ⟨h₁, h₇, rfl⟩)
    · obtain ⟨e, rfl | ⟨k, hk, rfl⟩⟩ := exec_error_cases hx herr
      · exact .inr (.inr ⟨rfl, rfl⟩)
      · obtain ⟨h₁, h₇⟩ := ErrorKind.errCode_range hk
        exact .inr (.inl ⟨by simpa, by simpa, by simp⟩)

/-- Settles O48: the completion answers, ends the busy interval, and has one of the three outcomes. -/
theorem everyCommandCompletes : Obligations.EveryCommandCompletes := by
  intro s hi
  obtain ⟨t, h⟩ := complete_answers hi
  obtain ⟨e, hc⟩ := completes_of_complete h
  obtain ⟨busy, pend⟩ := hc.busy_pend
  exact ⟨t, h, busy, pend, complete_outcome h⟩

/-! ## The fatal state -/

/-- R244: no completion clears `FATAL`. -/
theorem Completes.keeps_fatal {i : Option Instr} (h : Completes s i t) (hf : s.status.fatal = true) :
    t.status.fatal = true := by
  cases h with
  | entersFatal => rfl
  | _ => exact hf

/-- R73, R244: while `FATAL = 1` a host write clears neither `FATAL` nor `ERR` and starts no command. -/
theorem portWrite_keeps_of_fatal (hf : s.status.fatal = true) (v : Word) {a : Nat} (h8 : a % 8 = 0) :
    (s.portWrite v (portPlace a)).status.fatal = true ∧
      (s.portWrite v (portPlace a)).status.busy = s.status.busy ∧
      (s.portWrite v (portPlace a)).status.err = s.status.err := by
  obtain e | ⟨h0, -⟩ | ⟨r, -, e⟩ | e | ⟨r, -, e⟩ | ⟨b, k, -, -, e⟩ := portWrite_cases s v h8
  case inr.inl => simp [h0] at hf
  all_goals rw [e]; exact ⟨hf, rfl, rfl⟩

/-- Settles O50, by the forms of a step other than the reset input; a completion needs `BUSY = 1`. -/
theorem fatalLeftOnlyByReset : Obligations.FatalLeftOnlyByReset := by
  intro s t hf h hreset
  obtain ⟨hr, -⟩ | ⟨e, rfl⟩ | ⟨⟨hbusy, -⟩, e, hc⟩ | ⟨e, a, v, h8, hb, rfl⟩ := step_effect h
  · exact absurd hr hreset
  · exact ⟨hf, fun hb => ⟨hb, rfl⟩⟩
  · exact ⟨hc.keeps_fatal hf, fun hb => by simp [hb] at hbusy⟩
  · obtain ⟨fatal, busy, err⟩ := portWrite_keeps_of_fatal (s := s.withEnv e) hf v h8
    exact ⟨fatal, fun hb => ⟨busy.trans hb, err⟩⟩

/-- Settles O47: both commands go on to the draw, which the source does not answer. -/
theorem entropyFailureIsFatal : Obligations.EntropyFailureIsFatal := by
  intro s hdraw
  rw [← State.generateSecret_of_unavailable (Prod.ext hdraw rfl)]
  exact ⟨execRand_of_len, execGensec_of_len⟩

end Sys2Proof.Machine
end

section
/-! PROOFS. The statement of 70_reset_and_hazards.md about the engine's turn: the step is the completion of `PEND` on the
state without that turn. -/

namespace Sys2Proof.Machine

variable {s : State}

/-- R41, R272: while `BUSY = 1` the engine's turn is the completion of the pending command. -/
theorem engineTurn_busy (hb : s.status.busy = true) : engineTurn s = complete s := if_pos hb

/-- R94, R272: the completion of a legal word runs its command. -/
theorem complete_of_decode {i : Instr} (hd : decode s.pend = some i) : complete s = exec i s := by
  rw [complete, hd]

/-- An empty schedule has no turn to remove. -/
theorem State.withSchedule_of_nil (hs : s.env.schedule = []) : s.withSchedule [] = s := by
  rw [State.withSchedule, ← hs]

/-- R272: the step of the engine completes `PEND`, by the two schedules in which the engine moves next (log 1). -/
theorem step_of_engineNext (h : s.engineNext) : step s = complete (s.withSchedule s.env.schedule.tail) := by
  obtain ⟨hb, hs | ⟨ts, hs⟩⟩ := h
  · calc step s
      _ = engineTurn s := by simp only [step, hs]
      _ = complete s := engineTurn_busy hb
      _ = complete (s.withSchedule s.env.schedule.tail) := by rw [hs, List.tail_nil, State.withSchedule_of_nil hs]
  · calc step s
      _ = engineTurn (s.withSchedule ts) := by simp only [step, hs]
      _ = complete (s.withSchedule ts) := engineTurn_busy hb
      _ = complete (s.withSchedule s.env.schedule.tail) := by rw [hs, List.tail_cons]

/-- Settles O5: the step completes `PEND`, and the completion follows what the word decodes to. -/
theorem stepRunsDecodedCommand : Obligations.StepRunsDecodedCommand := by
  intro s h
  rw [step_of_engineNext h]
  exact ⟨fun _ hd => complete_of_decode hd, fun hi => complete_illegal hi⟩

end Sys2Proof.Machine
end
